-- ==== Sys2Proof/Word.lean ====
section
/-! DEFINITION. The word types of chip8_cpu_core (spec rules R6, R10, R73). -/

namespace Sys2Proof

/-- A general register, a timer, a byte of memory: 8 bits, unsigned (R10, R21). -/
abbrev Byte := BitVec 8

/-- `pc`, `I`, a stack entry, the instruction word, the keypad mask: 16 bits (R6). -/
abbrev Word := BitVec 16

/-- The 12-bit address field `NNN` (R72). -/
abbrev Addr12 := BitVec 12

/-- A register number 0 to 15: the fields `X` and `Y` (R73). -/
abbrev Reg := Fin 16

/-- The graphics buffer's 2048 one-bit cells as 32 rows of 64 pixels: bit `x` of row `y` is
`GFX[x + y * 64]` (R33). -/
abbrev Gfx := Vector (BitVec 64) 32

end Sys2Proof
end

