-- ==== Sys2Proof/Syntax.lean ====
section
/-! DEFINITION. The instructions: one constructor per row of spec/opcode_table.json, in the
table's order. -/

namespace Sys2Proof

/-- The 34 instructions (R76 to R80). Operands are the fields of R73: `x` and `y` register numbers,
`nn` a byte, `nnn` a 12-bit address, `n` the nibble as a count. A field the instruction ignores is
kept as its last operand (R81; log 32), so that a word and its instruction determine each other. -/
inductive Instr where
  /-- 00E0, clear screen (R161). -/
  | cls
  /-- 00EE, return (R101). -/
  | ret
  /-- 1NNN, jump (R102). -/
  | jp (nnn : Addr12)
  /-- 2NNN, call (R103). -/
  | call (nnn : Addr12)
  /-- 3XNN, skip if equal to the byte (R104). -/
  | seImm (x : Reg) (nn : Byte)
  /-- 4XNN, skip if not equal to the byte (R105). -/
  | sneImm (x : Reg) (nn : Byte)
  /-- 5XYN, skip if registers are equal (R106); `n` is ignored (R81). -/
  | seReg (x y : Reg) (n : Nat)
  /-- 6XNN, load the byte (R121). -/
  | ldImm (x : Reg) (nn : Byte)
  /-- 7XNN, add the byte, no flag (R122). -/
  | addImm (x : Reg) (nn : Byte)
  /-- 8XY0, move (R123). -/
  | ldReg (x y : Reg)
  /-- 8XY1 (R124). -/
  | orReg (x y : Reg)
  /-- 8XY2 (R125). -/
  | andReg (x y : Reg)
  /-- 8XY3 (R126). -/
  | xorReg (x y : Reg)
  /-- 8XY4, add with carry out (R127). -/
  | addReg (x y : Reg)
  /-- 8XY5, VX - VY (R128). -/
  | sub (x y : Reg)
  /-- 8XY6, shift right by one (R129); `y` is ignored (R81). -/
  | shr (x y : Reg)
  /-- 8XY7, VY - VX (R130). -/
  | subn (x y : Reg)
  /-- 8XYE, shift left by one (R131); `y` is ignored (R81). -/
  | shl (x y : Reg)
  /-- 9XYN, skip if registers differ (R107); `n` is ignored (R81). -/
  | sneReg (x y : Reg) (n : Nat)
  /-- ANNN, set the index pointer (R141). -/
  | ldI (nnn : Addr12)
  /-- BNNN, jump to NNN + V0 (R108). -/
  | jpV0 (nnn : Addr12)
  /-- CXNN, random byte AND mask (R171). -/
  | rnd (x : Reg) (nn : Byte)
  /-- DXYN, draw a sprite of `n` rows (R162). -/
  | drw (x y : Reg) (n : Nat)
  /-- EX9E, skip if key VX is down (R172). -/
  | skp (x : Reg)
  /-- EXA1, skip if key VX is not down (R173). -/
  | sknp (x : Reg)
  /-- FX07, read the delay timer (R174). -/
  | ldVxDt (x : Reg)
  /-- FX0A, wait for a key (R175). -/
  | ldVxK (x : Reg)
  /-- FX15, set the delay timer (R176). -/
  | ldDt (x : Reg)
  /-- FX18, set the sound timer (R177). -/
  | ldSt (x : Reg)
  /-- FX1E, add to the index pointer (R142). -/
  | addI (x : Reg)
  /-- FX29, index of a font glyph (R143). -/
  | ldF (x : Reg)
  /-- FX33, store three decimal digits (R144). -/
  | ldB (x : Reg)
  /-- FX55, store V0 to VX (R145). -/
  | storeRegs (x : Reg)
  /-- FX65, load V0 to VX (R146). -/
  | loadRegs (x : Reg)
deriving DecidableEq, Repr

end Sys2Proof
end

