-- ==== Sys2Proof/WellFormed.lean ====
section
/-! DEFINITION. Which terms of `Instr` are instructions of the machine: the nibble fields held as
numbers must fit their four bits (R72). Registers, bytes and addresses fit by their types. -/

namespace Sys2Proof

/-- The nibble `N` fits its four bits (R72); every other operand fits by its type. -/
def Instr.wellFormed : Instr → Bool
  | .seReg _ _ n => decide (n < 16)
  | .sneReg _ _ n => decide (n < 16)
  | .drw _ _ n => decide (n < 16)
  | .cls | .ret | .jp _ | .call _ | .seImm _ _ | .sneImm _ _ | .ldImm _ _ | .addImm _ _ => true
  | .ldReg _ _ | .orReg _ _ | .andReg _ _ | .xorReg _ _ | .addReg _ _ | .sub _ _ => true
  | .shr _ _ | .subn _ _ | .shl _ _ | .ldI _ | .jpV0 _ | .rnd _ _ | .skp _ | .sknp _ => true
  | .ldVxDt _ | .ldVxK _ | .ldDt _ | .ldSt _ | .addI _ | .ldF _ | .ldB _ => true
  | .storeRegs _ | .loadRegs _ => true

/-- The spelling an assembler must emit: ignored fields are 0 (R75, R85). Words with other values in
them are valid and execute the same (R81). -/
def Instr.canonical : Instr → Bool
  | .seReg _ _ n => decide (n = 0)
  | .sneReg _ _ n => decide (n = 0)
  | .shr _ y => decide (y = 0)
  | .shl _ y => decide (y = 0)
  | .cls | .ret | .jp _ | .call _ | .seImm _ _ | .sneImm _ _ | .ldImm _ _ | .addImm _ _ => true
  | .ldReg _ _ | .orReg _ _ | .andReg _ _ | .xorReg _ _ | .addReg _ _ | .sub _ _ => true
  | .subn _ _ | .ldI _ | .jpV0 _ | .rnd _ _ | .drw _ _ _ | .skp _ | .sknp _ => true
  | .ldVxDt _ | .ldVxK _ | .ldDt _ | .ldSt _ | .addI _ | .ldF _ | .ldB _ => true
  | .storeRegs _ | .loadRegs _ => true

end Sys2Proof
end

