-- ==== Sys2Proof/Decode.lean ====
section
/-! DEFINITION. The decoder (30_encoding.md R70 to R84), the encoder written from the same
encodings, and the table's masks. Bit patterns: R76 to R80, PRESUMED for 31 of the 34 rows (U1; log 9). -/

namespace Sys2Proof

/-! ### Fields -/

/-- Every field of the word, extracted from every word (R71). -/
structure Fields where
  f   : BitVec 4
  x   : Reg
  y   : Reg
  n   : BitVec 4
  nn  : Byte
  nnn : Addr12
deriving DecidableEq, Repr

/-- R72: `F = op[15:12]`, `X = op[11:8]`, `Y = op[7:4]`, `N = op[3:0]`, `NN = op[7:0]`,
`NNN = op[11:0]`. -/
def fields (op : Word) : Fields where
  f   := op.extractLsb' 12 4
  x   := (op.extractLsb' 8 4).toFin
  y   := (op.extractLsb' 4 4).toFin
  n   := op.extractLsb' 0 4
  nn  := op.extractLsb' 0 8
  nnn := op.extractLsb' 0 12

/-! ### Decoder -/

/-- Why bytes are no instruction: the family whose second-level dispatch found no handler (R74, R82),
or fewer than two bytes. -/
inductive Reject where
  | invalidFamily0
  | invalidFamily8
  | invalidFamilyE
  | invalidFamilyF
  | truncated
deriving DecidableEq, Repr

/-- Family 0x0: the whole word is compared (R75, R76; every `0NNN` is invalid, R83). -/
def decodeFamily0 (op : Word) : Except Reject Instr :=
  if op = 0x00E0#16 then .ok .cls
  else if op = 0x00EE#16 then .ok .ret
  else .error .invalidFamily0

/-- Family 0x8: the low nibble is the function code (R75, R78). -/
def decodeFamily8 (d : Fields) : Except Reject Instr :=
  if d.n = 0x0#4 then .ok (.ldReg d.x d.y)
  else if d.n = 0x1#4 then .ok (.orReg d.x d.y)
  else if d.n = 0x2#4 then .ok (.andReg d.x d.y)
  else if d.n = 0x3#4 then .ok (.xorReg d.x d.y)
  else if d.n = 0x4#4 then .ok (.addReg d.x d.y)
  else if d.n = 0x5#4 then .ok (.sub d.x d.y)
  else if d.n = 0x6#4 then .ok (.shr d.x d.y)
  else if d.n = 0x7#4 then .ok (.subn d.x d.y)
  else if d.n = 0xE#4 then .ok (.shl d.x d.y)
  else .error .invalidFamily8

/-- Family 0xE: the low byte is the function code (R75, R79). -/
def decodeFamilyE (d : Fields) : Except Reject Instr :=
  if d.nn = 0x9E#8 then .ok (.skp d.x)
  else if d.nn = 0xA1#8 then .ok (.sknp d.x)
  else .error .invalidFamilyE

/-- Family 0xF: the low byte is the function code (R75, R80). -/
def decodeFamilyF (d : Fields) : Except Reject Instr :=
  if d.nn = 0x07#8 then .ok (.ldVxDt d.x)
  else if d.nn = 0x0A#8 then .ok (.ldVxK d.x)
  else if d.nn = 0x15#8 then .ok (.ldDt d.x)
  else if d.nn = 0x18#8 then .ok (.ldSt d.x)
  else if d.nn = 0x1E#8 then .ok (.addI d.x)
  else if d.nn = 0x29#8 then .ok (.ldF d.x)
  else if d.nn = 0x33#8 then .ok (.ldB d.x)
  else if d.nn = 0x55#8 then .ok (.storeRegs d.x)
  else if d.nn = 0x65#8 then .ok (.loadRegs d.x)
  else .error .invalidFamilyF

/-- R84: decoding is total on 16-bit words; the family selects, families 0x0, 0x8, 0xE and 0xF
dispatch further (R74), and families 0x5 and 0x9 ignore `N` (R75). -/
def decodeWord (op : Word) : Except Reject Instr :=
  let d := fields op
  if d.f = 0x0#4 then decodeFamily0 op
  else if d.f = 0x1#4 then .ok (.jp d.nnn)
  else if d.f = 0x2#4 then .ok (.call d.nnn)
  else if d.f = 0x3#4 then .ok (.seImm d.x d.nn)
  else if d.f = 0x4#4 then .ok (.sneImm d.x d.nn)
  else if d.f = 0x5#4 then .ok (.seReg d.x d.y d.n.toNat)
  else if d.f = 0x6#4 then .ok (.ldImm d.x d.nn)
  else if d.f = 0x7#4 then .ok (.addImm d.x d.nn)
  else if d.f = 0x8#4 then decodeFamily8 d
  else if d.f = 0x9#4 then .ok (.sneReg d.x d.y d.n.toNat)
  else if d.f = 0xA#4 then .ok (.ldI d.nnn)
  else if d.f = 0xB#4 then .ok (.jpV0 d.nnn)
  else if d.f = 0xC#4 then .ok (.rnd d.x d.nn)
  else if d.f = 0xD#4 then .ok (.drw d.x d.y d.n.toNat)
  else if d.f = 0xE#4 then decodeFamilyE d
  else decodeFamilyF d

/-- The instruction at the front of a byte string and the bytes after it; the first byte is the
high one (R52, R70). -/
def decodeBytes : List Byte → Except Reject (Instr × List Byte)
  | hi :: lo :: rest =>
    match decodeWord (hi ++ lo) with
    | .ok i => .ok (i, rest)
    | .error r => .error r
  | _ => .error .truncated

/-! ### Encoder -/

/-- A word of the form `NNN`. -/
def wordNNN (f : BitVec 4) (nnn : Addr12) : Word := f ++ nnn

/-- A word of the form `XNN`, and of the form `X` with `NN` as the function code. -/
def wordXNN (f : BitVec 4) (x : Reg) (nn : Byte) : Word := f ++ BitVec.ofFin (w := 4) x ++ nn

/-- A word of the forms `XY` and `XYN`. -/
def wordXYN (f : BitVec 4) (x y : Reg) (n : BitVec 4) : Word :=
  f ++ BitVec.ofFin (w := 4) x ++ BitVec.ofFin (w := 4) y ++ n

/-- The word of an instruction (R76 to R80). -/
def encode : Instr → Word
  | .cls            => 0x00E0#16
  | .ret            => 0x00EE#16
  | .jp nnn         => wordNNN 0x1#4 nnn
  | .call nnn       => wordNNN 0x2#4 nnn
  | .seImm x nn     => wordXNN 0x3#4 x nn
  | .sneImm x nn    => wordXNN 0x4#4 x nn
  | .seReg x y n    => wordXYN 0x5#4 x y (BitVec.ofNat 4 n)
  | .ldImm x nn     => wordXNN 0x6#4 x nn
  | .addImm x nn    => wordXNN 0x7#4 x nn
  | .ldReg x y      => wordXYN 0x8#4 x y 0x0#4
  | .orReg x y      => wordXYN 0x8#4 x y 0x1#4
  | .andReg x y     => wordXYN 0x8#4 x y 0x2#4
  | .xorReg x y     => wordXYN 0x8#4 x y 0x3#4
  | .addReg x y     => wordXYN 0x8#4 x y 0x4#4
  | .sub x y        => wordXYN 0x8#4 x y 0x5#4
  | .shr x y        => wordXYN 0x8#4 x y 0x6#4
  | .subn x y       => wordXYN 0x8#4 x y 0x7#4
  | .shl x y        => wordXYN 0x8#4 x y 0xE#4
  | .sneReg x y n   => wordXYN 0x9#4 x y (BitVec.ofNat 4 n)
  | .ldI nnn        => wordNNN 0xA#4 nnn
  | .jpV0 nnn       => wordNNN 0xB#4 nnn
  | .rnd x nn       => wordXNN 0xC#4 x nn
  | .drw x y n      => wordXYN 0xD#4 x y (BitVec.ofNat 4 n)
  | .skp x          => wordXNN 0xE#4 x 0x9E#8
  | .sknp x         => wordXNN 0xE#4 x 0xA1#8
  | .ldVxDt x       => wordXNN 0xF#4 x 0x07#8
  | .ldVxK x        => wordXNN 0xF#4 x 0x0A#8
  | .ldDt x         => wordXNN 0xF#4 x 0x15#8
  | .ldSt x         => wordXNN 0xF#4 x 0x18#8
  | .addI x         => wordXNN 0xF#4 x 0x1E#8
  | .ldF x          => wordXNN 0xF#4 x 0x29#8
  | .ldB x          => wordXNN 0xF#4 x 0x33#8
  | .storeRegs x    => wordXNN 0xF#4 x 0x55#8
  | .loadRegs x     => wordXNN 0xF#4 x 0x65#8

/-- A word as its two bytes in memory order, high byte first (R54). -/
def wordBytes (op : Word) : List Byte := [op.extractLsb' 8 8, op.extractLsb' 0 8]

/-- The bytes of an instruction in memory order. -/
def encodeBytes (i : Instr) : List Byte := wordBytes (encode i)

/-! ### The opcode table's masks -/

/-- A row of spec/opcode_table.json: `(op AND mask) = val` selects it (R84; `match` in the table). -/
structure Row where
  mask : Word
  val  : Word
deriving DecidableEq, Repr

/-- The table's row of each instruction (R75 to R80). -/
def rowOf : Instr → Row
  | .cls          => ⟨0xFFFF#16, 0x00E0#16⟩
  | .ret          => ⟨0xFFFF#16, 0x00EE#16⟩
  | .jp _         => ⟨0xF000#16, 0x1000#16⟩
  | .call _       => ⟨0xF000#16, 0x2000#16⟩
  | .seImm _ _    => ⟨0xF000#16, 0x3000#16⟩
  | .sneImm _ _   => ⟨0xF000#16, 0x4000#16⟩
  | .seReg _ _ _  => ⟨0xF000#16, 0x5000#16⟩
  | .ldImm _ _    => ⟨0xF000#16, 0x6000#16⟩
  | .addImm _ _   => ⟨0xF000#16, 0x7000#16⟩
  | .ldReg _ _    => ⟨0xF00F#16, 0x8000#16⟩
  | .orReg _ _    => ⟨0xF00F#16, 0x8001#16⟩
  | .andReg _ _   => ⟨0xF00F#16, 0x8002#16⟩
  | .xorReg _ _   => ⟨0xF00F#16, 0x8003#16⟩
  | .addReg _ _   => ⟨0xF00F#16, 0x8004#16⟩
  | .sub _ _      => ⟨0xF00F#16, 0x8005#16⟩
  | .shr _ _      => ⟨0xF00F#16, 0x8006#16⟩
  | .subn _ _     => ⟨0xF00F#16, 0x8007#16⟩
  | .shl _ _      => ⟨0xF00F#16, 0x800E#16⟩
  | .sneReg _ _ _ => ⟨0xF000#16, 0x9000#16⟩
  | .ldI _        => ⟨0xF000#16, 0xA000#16⟩
  | .jpV0 _       => ⟨0xF000#16, 0xB000#16⟩
  | .rnd _ _      => ⟨0xF000#16, 0xC000#16⟩
  | .drw _ _ _    => ⟨0xF000#16, 0xD000#16⟩
  | .skp _        => ⟨0xF0FF#16, 0xE09E#16⟩
  | .sknp _       => ⟨0xF0FF#16, 0xE0A1#16⟩
  | .ldVxDt _     => ⟨0xF0FF#16, 0xF007#16⟩
  | .ldVxK _      => ⟨0xF0FF#16, 0xF00A#16⟩
  | .ldDt _       => ⟨0xF0FF#16, 0xF015#16⟩
  | .ldSt _       => ⟨0xF0FF#16, 0xF018#16⟩
  | .addI _       => ⟨0xF0FF#16, 0xF01E#16⟩
  | .ldF _        => ⟨0xF0FF#16, 0xF029#16⟩
  | .ldB _        => ⟨0xF0FF#16, 0xF033#16⟩
  | .storeRegs _  => ⟨0xF0FF#16, 0xF055#16⟩
  | .loadRegs _   => ⟨0xF0FF#16, 0xF065#16⟩

/-- The word is selected by the row. -/
def Row.selects (r : Row) (op : Word) : Bool := decide (op &&& r.mask = r.val)

/-! ### The host's numbering -/

/-- The instruction the decoder reads from a table word whose low `nbits` bits are `w`: one 16-bit
word, laid out high byte first. -/
def decodeTableWord (nbits w : Nat) : Option Instr :=
  match decodeBytes (wordBytes (BitVec.ofNat 16 (w % 2 ^ nbits))) with
  | .ok (i, _) => some i
  | .error _ => none

end Sys2Proof
end

