-- ==== Sys2Proof/Config.lean ====
section
/-! DEFINITION. The parameters the spec names (00_scope.md R6, 92_eei_decisions.md) and the free
values. The values of the parameters stand in Machine/Params.lean. A free value is an opaque
constant: nothing can be proved about what it is. -/

namespace Sys2Proof

/-- `VF_ALIAS` (R24, D4): which write comes last when the result register is VF. -/
inductive VfAlias where
  | flagLast
  | resultLast
deriving DecidableEq, Repr

/-- `GFX_EDGE` (R162, D12): a pixel outside the grid. `linear` is not carried (log 39). -/
inductive GfxEdge where
  | wrap
  | clip
deriving DecidableEq, Repr

/-- `KEY_HIGH_INDEX` (R172, D14): a key test with an index above 15. -/
inductive KeyHighIndex where
  | zero
  | lowNibble
deriving DecidableEq, Repr

/-- `KEY_CHOICE` (R175, D15): which of several pressed keys the key-wait stores. -/
inductive KeyChoice where
  | lowest
  | any
deriving DecidableEq, Repr

/-- `FONT_WRITE` (R59, D18): a store into 0x000 to 0x04F. `fault` is not carried (log 39). -/
inductive FontWrite where
  | performed
  | ignored
deriving DecidableEq, Repr

/-- The switchable parameters of R6, one field each. -/
structure Config where
  vfAlias       : VfAlias
  gfxEdge       : GfxEdge
  /-- `SPRITE_MSB_LEFT` (D13): bit 7 of a sprite byte is its leftmost pixel. -/
  spriteMsbLeft : Bool
  keyHighIndex  : KeyHighIndex
  keyChoice     : KeyChoice
  fontWrite     : FontWrite
  /-- `REG_INIT` (D5): the reset value of V0 to VF. -/
  regInit       : Byte
  /-- `REG_INIT` (D5): the reset value of `I`. -/
  indexInit     : Word
  /-- `START_KEY` (D21): the key that ends `AwaitingTrigger`. -/
  startKey      : Reg
  /-- `PROG_MAX` (D22): the largest program image, in bytes. -/
  progMax       : Nat
  /-- `FONT` (D17, R37): the glyph bytes at 0x000 to 0x04F after reset. -/
  font          : List Byte
deriving DecidableEq, Repr

/-- Who moves next (R190, R203, R250): the core, the 60 Hz tick source, the loader delivering an
image and its completion signal, or the reset event. -/
inductive Turn where
  | core
  | tick
  | load (image : List Byte)
  | reset
deriving DecidableEq, Repr, Inhabited

/-- The free choice of the next turn, when no turn is listed (R202: every interleaving; log 1). -/
opaque Config.freeTurn : Nat → Turn

/-- The free keypad sample, when none is listed (R196: any 16-bit value; log 2). -/
opaque Config.freeSample : Nat → Word

/-- The free random byte, when none is listed (R197: any byte; log 3). -/
opaque Config.freeByte : Nat → Byte

/-- The free choice among pressed keys under `KEY_CHOICE` = `any` (D15; log 16). -/
opaque Config.freeKey : Nat → Nat

/-- `RAM_INIT` (R42, D6): what the byte at an address outside the font holds after a reset, per
reset: any byte (log 7). -/
opaque Config.ramInit : Nat → Nat → Byte

end Sys2Proof
end

