-- ==== Sys2Proof/Machine/Params.lean ====
section
/-! DEFINITION. The values of the parameters for this hardware (00_scope.md R6) and the font. -/

namespace Sys2Proof.Machine

/-- Glyphs 0 to 7 of `FONT` (R37). PRESUMED: the conventional CHIP-8 font (D17, U3; log 8). -/
def fontLow : List Byte :=
  [0xF0, 0x90, 0x90, 0x90, 0xF0] ++ [0x20, 0x60, 0x20, 0x20, 0x70] ++
  [0xF0, 0x10, 0xF0, 0x80, 0xF0] ++ [0xF0, 0x10, 0xF0, 0x10, 0xF0] ++
  [0x90, 0x90, 0xF0, 0x10, 0x10] ++ [0xF0, 0x80, 0xF0, 0x10, 0xF0] ++
  [0xF0, 0x80, 0xF0, 0x90, 0xF0] ++ [0xF0, 0x10, 0x20, 0x40, 0x40]

/-- Glyphs 8 to F of `FONT` (R37). PRESUMED: the conventional CHIP-8 font (D17, U3; log 8). -/
def fontHigh : List Byte :=
  [0xF0, 0x90, 0xF0, 0x90, 0xF0] ++ [0xF0, 0x90, 0xF0, 0x10, 0xF0] ++
  [0xF0, 0x90, 0xF0, 0x90, 0x90] ++ [0xE0, 0x90, 0xE0, 0x90, 0xE0] ++
  [0xF0, 0x80, 0x80, 0x80, 0xF0] ++ [0xE0, 0x90, 0x90, 0x90, 0xE0] ++
  [0xF0, 0x80, 0xF0, 0x80, 0xF0] ++ [0xF0, 0x80, 0xF0, 0x80, 0x80]

/-- The 80 bytes of the font at addresses 0x000 to 0x04F (R36, R37). -/
def font : List Byte := fontLow ++ fontHigh

/-- The decided values of R6: D4 (log 12), D12 (log 13), D13 (log 14), D14 (log 15), D15 (log 16),
D18 (log 18), D5 (log 5), D21 (log 22), D22 (log 23), D17 (log 8). -/
def params : Config where
  vfAlias       := .flagLast
  gfxEdge       := .wrap
  spriteMsbLeft := true
  keyHighIndex  := .zero
  keyChoice     := .lowest
  fontWrite     := .performed
  regInit       := 0
  indexInit     := 0
  startKey      := 0xA
  progMax       := 1024
  font          := font

/-- The font byte an address holds after reset; none outside 0x000 to 0x04F (R57). -/
def fontByte? (a : Nat) : Option Byte := params.font[a]?

end Sys2Proof.Machine
end

