-- ==== Sys2Proof/Machine/State.lean ====
section
/-! DEFINITION. The machine's state as plain data (10_state.md R20, R42), the reasons a step stops,
and the state after reset. -/

namespace Sys2Proof.Machine

/-- `RUN` (R38, R191): the run loop's state. -/
inductive Run where
  | awaitingTrigger
  | running
  | halted
deriving DecidableEq, Repr

/-- `FAULT` (R39, R220): the cause of the fault that halted the core. -/
inductive FaultCause where
  | none
  | invalidOpcode
  | stackOverflow
  | stackUnderflow
deriving DecidableEq, Repr

/-- Memory's contents: (address, byte) pairs at strictly rising addresses; what an unlisted address
reads as is `Memory.unlisted` in Machine/Ops.lean. -/
abbrev Memory := List Host.Cell

/-- The MODEL'S OWN record of the outside, not state of the core: the inputs to come, oldest first,
and the outputs so far. An input with nothing listed is a free value (log 1 to log 4). -/
structure Env where
  /-- Who moves next, oldest first (log 1). -/
  turns  : List Turn
  /-- The values the keypad will present at the coming samples (R196; log 2). -/
  keypad : List Word
  /-- The bytes the random source will answer (R197; log 3). -/
  rng    : List Byte
  /-- How many free values have been drawn (log 4). -/
  draws  : Nat
  /-- How many resets have happened: the index of the free RAM contents (log 7). -/
  boots  : Nat
  /-- The buffers handed to the display, newest first (R198; log 25). -/
  pushes : List Gfx
deriving DecidableEq, Repr

/-- The complete state (R20), the loader's completion level `loaded` (R203), and the model's own
record `env` of inputs and outputs. -/
structure State where
  /-- `x[0]` to `x[15]`, V0 to VF (R21); `x[15]` is the flag register VF (R22). -/
  x         : Vector Byte 16
  /-- The program counter (R25). -/
  pc        : Word
  /-- The index pointer `I` (R28). -/
  i         : Word
  /-- `SP`, the number of call-stack entries in use, 0 to 16 (R30). -/
  sp        : Fin 17
  /-- `STACK[0]` to `STACK[15]` (R30). -/
  stack     : Vector Word 16
  /-- The delay timer `DT` (R32). -/
  dt        : Byte
  /-- The sound timer `ST` (R32). -/
  st        : Byte
  /-- The graphics buffer `GFX` (R33). -/
  gfx       : Gfx
  /-- The draw flag `DF` (R34). -/
  df        : Bool
  /-- The keypad latch `KP` (R35). -/
  kp        : Word
  /-- `MEM` (R36). -/
  mem       : Memory
  /-- `RUN` (R38). -/
  run       : Run
  /-- `FAULT` (R39). -/
  fault     : FaultCause
  /-- `FAULT_INFO` (R39): the instruction word that faulted. -/
  faultInfo : Word
  /-- The loader's completion level, as the core sees it (R203). -/
  loaded    : Bool
  /-- The model's own record of the outside. -/
  env       : Env
deriving DecidableEq, Repr

/-- Why a step stops. -/
inductive Fault where
  /-- Raised by `step` when the turn is the core's and `RUN` = `Halted`: no core step is enabled
  (R194, U39 "stuck"). Safe: the model stops where the core takes no step (log 21). -/
  | coreHalted
deriving DecidableEq, Repr

/-- Why an instruction is refused. -/
inductive Refusal where
  /-- Raised by an arm of `exec` whose instruction has no meaning yet; no arm raises it now. Safe. -/
  | notModelled (mnemonic : String)
deriving DecidableEq, Repr

/-- What a step or a meaning answers. -/
abbrev Result := Host.Outcome State Fault Refusal

/-- The model's own record right after the first reset: nothing listed, nothing drawn, nothing
pushed. DESIGN CHOICE (log 4). -/
def Env.reset : Env where
  turns  := []
  keypad := []
  rng    := []
  draws  := 0
  boots  := 0
  pushes := []

/-- The machine right after reset (R42, R251). The document gives `pc`, `SP`, `DT`, `ST`, `GFX`, the
font and `RUN`; the other values are D5 (log 5) and D7, D8 (log 6). -/
def State.reset : State where
  x         := Vector.replicate 16 params.regInit
  pc        := 0x0200
  i         := params.indexInit
  sp        := 0
  stack     := Vector.replicate 16 0
  dt        := 0
  st        := 0
  gfx       := Vector.replicate 32 0
  df        := false
  kp        := 0
  mem       := []
  run       := .awaitingTrigger
  fault     := .none
  faultInfo := 0
  loaded    := false
  env       := Env.reset

end Sys2Proof.Machine
end

