-- ==== Sys2Proof/Machine/Ops.lean ====
section
/-! DEFINITION. The named operations every meaning and every step is made of: memory (20_memory.md),
registers, `pc`, call stack, inputs, taking a fault (60_exceptions.md), the timer tick, the display
push, the loader and reset (49_run_loop_and_interfaces.md, 70_reset_and_hazards.md). -/

namespace Sys2Proof.Machine

/-! ### Memory -/

/-- What an address holds when nothing is listed for it: its font byte, and outside the font a free
value (R42, D6; log 7, log 8). -/
def Memory.unlisted (boot a : Nat) : Byte := (fontByte? a).getD (Config.ramInit boot a)

/-- The byte listed for an address. -/
def Memory.find : Memory → Nat → Option Byte
  | [], _ => none
  | (b, v) :: m, a => if a = b then some v else Memory.find m a

/-- List a byte for an address, in its place in the rising order. -/
def Memory.put : Memory → Nat → Byte → Memory
  | [], a, v => [(a, v)]
  | (b, w) :: m, a, v =>
    if a < b then (a, v) :: (b, w) :: m
    else if a = b then (a, v) :: m
    else (b, w) :: Memory.put m a v

/-- Unlist an address. -/
def Memory.erase : Memory → Nat → Memory
  | [], _ => []
  | (b, w) :: m, a => if a = b then Memory.erase m a else (b, w) :: Memory.erase m a

/-- Reading one byte. -/
def Memory.read (boot : Nat) (m : Memory) (a : Nat) : Byte :=
  (Memory.find m a).getD (Memory.unlisted boot a)

/-- Writing one byte; writing its font byte to a font address unlists it, so that the form stays
canonical (log 36). -/
def Memory.write (m : Memory) (a : Nat) (v : Byte) : Memory :=
  if fontByte? a = some v then Memory.erase m a else Memory.put m a v

/-- Writing a string of bytes at rising addresses from `a`. -/
def Memory.writeImage : Memory → Nat → List Byte → Memory
  | m, _, [] => m
  | m, a, v :: vs => Memory.writeImage (Memory.write m a v) (a + 1) vs

/-- Every listed address is at least `lo`, below 4096, rising, and lists no font byte at its own
font address. -/
def Memory.wfFrom : Nat → Memory → Bool
  | _, [] => true
  | lo, (a, v) :: m =>
    decide (lo ≤ a) && decide (a < 4096) && decide (fontByte? a ≠ some v) && Memory.wfFrom (a + 1) m

/-- The canonical form of memory. -/
def Memory.wf (m : Memory) : Bool := Memory.wfFrom 0 m

/-- R58 (`ADDR_POLICY` = `wrap`, D2; log 10): the byte for offset `k` from base `b` stands at
`(b + k) mod 4096`. -/
def byteAddr (b : Word) (k : Nat) : Nat := (b.toNat + k) % 4096

/-- The byte `MEM[a]`. -/
def State.byteAt (s : State) (a : Nat) : Byte := Memory.read s.env.boots s.mem a

/-- `MemRead(b + k, 1)` (R52). -/
def State.memRead (s : State) (b : Word) (k : Nat) : Byte := s.byteAt (byteAddr b k)

/-- `MemWrite(b + k, 1, v)` (R53); the font area is ordinary memory under `FONT_WRITE` = `performed`
(R59, D18; log 18). -/
def State.memWrite (s : State) (b : Word) (k : Nat) (v : Byte) : State :=
  if params.fontWrite = .ignored ∧ byteAddr b k < 0x50 then s
  else { s with mem := Memory.write s.mem (byteAddr b k) v }

/-- Store bytes at offsets `k`, `k + 1`, … from a base, in ascending order (R147). -/
def State.storeFrom (s : State) (b : Word) : Nat → List Byte → State
  | _, [] => s
  | k, v :: vs => (s.memWrite b k v).storeFrom b (k + 1) vs

/-- `op = MemRead(pc, 2)`: the byte at `pc` is the high one (R52, R54, R70). -/
def State.fetch (s : State) : Word := s.memRead s.pc 0 ++ s.memRead s.pc 1

/-! ### Registers and the program counter -/

/-- Read `x[r]` (R21). -/
def State.reg (s : State) (r : Reg) : Byte := s.x[r.val]

/-- Write `x[r]` (R21). -/
def State.setReg (s : State) (r : Reg) (v : Byte) : State := { s with x := s.x.set r.val v r.isLt }

/-- Write `pc`. -/
def State.setPc (s : State) (a : Word) : State := { s with pc := a }

/-- `next` = `(pc + 2) mod 65536` (R15, R26, D3; log 11). -/
def State.nextPc (s : State) : Word := s.pc + 2

/-- `skip` = `(pc + 4) mod 65536` (R15, R26, D3; log 11). -/
def State.skipPc (s : State) : Word := s.pc + 4

/-- `pc <- next`. -/
def State.advance (s : State) : State := s.setPc s.nextPc

/-- `if c then pc <- skip else pc <- next`. -/
def State.skipIf (s : State) (c : Bool) : State := s.setPc (if c then s.skipPc else s.nextPc)

/-- Write `I` (R28). -/
def State.setI (s : State) (a : Word) : State := { s with i := a }

/-! ### Faults

There is no return from a fault: `Halted` is terminal and only reset leaves it (R232). -/

/-- The code of `FAULT` (R39, R220). -/
def FaultCause.code : FaultCause → Nat
  | .none => 0
  | .invalidOpcode => 1
  | .stackOverflow => 2
  | .stackUnderflow => 3

/-- Taking fault `f` with word `w` (R226): `RUN`, `FAULT`, `FAULT_INFO` are written and nothing else;
`pc` stays at the faulting instruction (R227, D9; log 20). -/
def State.raise (s : State) (f : FaultCause) (w : Word) : State :=
  { s with run := .halted, fault := f, faultInfo := w }

/-! ### Call stack -/

/-- Push `pc` and continue at `target`; `StackOverflow` with the word `op` when `SP` = 16
(R31, R103). -/
def State.callTo (s : State) (target op : Word) : State :=
  if h : s.sp.val < 16 then
    { s with stack := s.stack.set s.sp.val s.pc h, sp := ⟨s.sp.val + 1, by omega⟩, pc := target }
  else s.raise .stackOverflow op

/-- Pop into `pc` and add 2; `StackUnderflow` with the word `op` when `SP` = 0 (R31, R101). -/
def State.popReturn (s : State) (op : Word) : State :=
  if h : 0 < s.sp.val then
    { s with sp := ⟨s.sp.val - 1, by omega⟩, pc := s.stack[s.sp.val - 1] + 2 }
  else s.raise .stackUnderflow op

/-! ### Inputs -/

/-- The value the keypad presents now: the next listed one, else a free value (R196; log 2). -/
def Env.sample (e : Env) : Word :=
  match e.keypad with
  | v :: _ => v
  | [] => Config.freeSample e.draws

/-- The record after a sample. -/
def Env.afterSample (e : Env) : Env :=
  match e.keypad with
  | _ :: vs => { e with keypad := vs }
  | [] => { e with draws := e.draws + 1 }

/-- `KP <- Sample()` (R192, R193, R196). -/
def State.sampleKeypad (s : State) : State :=
  { s with kp := s.env.sample, env := s.env.afterSample }

/-- The byte the random source answers now: the next listed one, else a free value (R197; log 3). -/
def Env.rngByte (e : Env) : Byte :=
  match e.rng with
  | v :: _ => v
  | [] => Config.freeByte e.draws

/-- The record after a random request. -/
def Env.afterRng (e : Env) : Env :=
  match e.rng with
  | _ :: vs => { e with rng := vs }
  | [] => { e with draws := e.draws + 1 }

/-- Who moves next: the next listed turn, else a free one (R190, R202; log 1). -/
def Env.turn (e : Env) : Turn :=
  match e.turns with
  | t :: _ => t
  | [] => Config.freeTurn e.draws

/-- The record once the turn is taken. -/
def Env.afterTurn (e : Env) : Env :=
  match e.turns with
  | _ :: ts => { e with turns := ts }
  | [] => { e with draws := e.draws + 1 }

/-- The state once the turn is taken; no state of the core changes. -/
def State.takeTurn (s : State) : State := { s with env := s.env.afterTurn }

/-! ### Timer tick -/

/-- One less, floored at zero (R200). -/
def countDown (t : Byte) : Byte := if t = 0 then 0 else t - 1

/-- The tick: both timers, in one indivisible step, in every run state (R200, D19; log 27). -/
def State.tick (s : State) : State := { s with dt := countDown s.dt, st := countDown s.st }

/-! ### Display -/

/-- `emit DisplayPush(GFX)`, then `DF <- 0` (R193 phase 3, R198; log 25). -/
def State.pushDisplay (s : State) : State :=
  { s with df := false, env := { s.env with pushes := s.gfx :: s.env.pushes } }

/-- What follows the instruction in an iteration: a fault stops the step, else the buffer is pushed
if `DF` is set (R193). -/
def State.finish (s : State) : State :=
  match s.run with
  | .halted => s
  | .running => if s.df then s.pushDisplay else s
  | .awaitingTrigger => if s.df then s.pushDisplay else s

/-! ### Start, loader, reset -/

/-- The core step in `AwaitingTrigger` (R192, D21; log 22). -/
def State.awaitStart (s : State) : State :=
  let s := s.sampleKeypad
  if s.loaded && s.kp.getLsbD params.startKey.val then { s with run := .running } else s

/-- The loader delivers an image: accepted while the core awaits its trigger, nothing is loaded yet
and the image fits (R60, R203, R212, D22; log 23); otherwise nothing changes. -/
def State.load (s : State) (image : List Byte) : State :=
  if s.run = .awaitingTrigger ∧ s.loaded = false ∧ image.length ≤ params.progMax then
    { s with mem := Memory.writeImage s.mem 0x200 image, loaded := true }
  else s

/-- The reset event: every piece of the core's state takes its reset value, `MEM` outside the font is
unspecified again, `loaded` is false (R250, D24); the outside's record goes on (log 24). -/
def State.restart (s : State) : State :=
  { State.reset with env := { s.env with boots := s.env.boots + 1 } }

end Sys2Proof.Machine
end

