-- ==== Sys2Proof/Machine/Flags.lean ====
section
/-! DEFINITION. The flag computations (10_state.md R22 to R24, 41_load_alu.md R132) and the one write
of a result with its flag. Every flag is computed from the operand values before the instruction
(R23); arithmetic is exact, then narrowed (R10). -/

namespace Sys2Proof.Machine

/-- The flag register VF, `x[15]` (R22). -/
def flagReg : Reg := 15

/-- A flag's value, 1 or 0. -/
def flagByte (c : Bool) : Byte := if c then 1 else 0

/-- `(a + b) mod 256` (R132). -/
def sumByte (a b : Byte) : Byte := BitVec.ofNat 8 (a.toNat + b.toNat)

/-- 1 exactly when `a + b > 255` (R127, R132). -/
def carryFlag (a b : Byte) : Byte := flagByte (decide (a.toNat + b.toNat > 255))

/-- `(a - b) mod 256` (R132). -/
def diffByte (a b : Byte) : Byte := BitVec.ofInt 8 ((a.toNat : Int) - (b.toNat : Int))

/-- 0 exactly when `b > a` (R128, R130, R132). -/
def notBorrowFlag (a b : Byte) : Byte := flagByte (! decide (b.toNat > a.toNat))

/-- `a div 2` (R129). -/
def halfByte (a : Byte) : Byte := BitVec.ofNat 8 (a.toNat / 2)

/-- `(2 * a) mod 256` (R131). -/
def doubleByte (a : Byte) : Byte := BitVec.ofNat 8 (2 * a.toNat)

/-- The bit shifted out to the right, `a[0]` (R129). -/
def lowBitFlag (a : Byte) : Byte := flagByte (a.getLsbD 0)

/-- The bit shifted out to the left, `a[7]` (R131). -/
def highBitFlag (a : Byte) : Byte := flagByte (a.getLsbD 7)

/-- Write a result and its flag in the order `VF_ALIAS` says (R24, D4, C2; log 12). -/
def State.writeBoth (s : State) (order : VfAlias) (r : Reg) (result flag : Byte) : State :=
  match order with
  | .flagLast => (s.setReg r result).setReg flagReg flag
  | .resultLast => (s.setReg flagReg flag).setReg r result

/-- The end of the five arithmetic flag instructions: result, flag, then `pc <- next` (R120). -/
def State.writeFlagged (s : State) (r : Reg) (result flag : Byte) : State :=
  (s.writeBoth params.vfAlias r result flag).advance

end Sys2Proof.Machine
end

