-- ==== Sys2Proof/Machine/Operands.lean ====
section
/-! DEFINITION. The operand forms (30_encoding.md R73, 42_index_memory.md R147): immediates, the
register range, memory behind the index pointer, key numbers, sprite pixels. -/

namespace Sys2Proof.Machine

/-- `zext_16(NNN)` (R73). -/
def addrWord (nnn : Addr12) : Word := nnn.setWidth 16

/-- `zext_16(x[X])` (R108, R142, R143). -/
def byteWord (b : Byte) : Word := b.setWidth 16

/-- The registers V0 to VX, ascending (R145, R146). -/
def regRange (x : Reg) : List Reg := (List.finRange 16).take (x.val + 1)

/-- `MemRead(I + k, 1)` (R147). -/
def State.indexRead (s : State) (k : Nat) : Byte := s.memRead s.i k

/-- Store bytes at `I`, `I + 1`, … (R147). -/
def State.indexStore (s : State) (vs : List Byte) : State := s.storeFrom s.i 0 vs

/-- `n` bytes read from `I` upward (R51, R162). -/
def State.indexBytes (s : State) (n : Nat) : List Byte := (List.range n).map s.indexRead

/-- Load registers, each with the byte at its own offset from `I`, in the order given (R146). -/
def State.loadRange (s : State) : List Reg → State
  | [] => s
  | r :: rs => (s.setReg r (s.indexRead r.val)).loadRange rs

/-- The three decimal digits of a byte, hundreds first (R144). -/
def decimalDigits (v : Byte) : List Byte :=
  [BitVec.ofNat 8 (v.toNat / 100), BitVec.ofNat 8 (v.toNat / 10 % 10), BitVec.ofNat 8 (v.toNat % 10)]

/-! ### Keys -/

/-- Key number `k` is down in the mask `kp` (R172); above 15 by `KEY_HIGH_INDEX` (D14; log 15). -/
def keyDown (kp : Word) (k : Byte) : Bool :=
  match params.keyHighIndex with
  | .zero => decide (k.toNat ≤ 15) && kp.getLsbD k.toNat
  | .lowNibble => kp.getLsbD (k.toNat % 16)

/-- The numbers of the keys that are down, ascending (R35). -/
def pressedKeys (kp : Word) : List Nat := (List.range 16).filter fun k => kp.getLsbD k

/-- The smallest `k` with `KP[k]` = 1 (R175). -/
def lowestKey (kp : Word) : Nat := (pressedKeys kp).headD 0

/-- The key the key-wait stores when some key is down (R175, `KEY_CHOICE`, D15; log 16). -/
def State.chosenKey (s : State) : Byte :=
  match params.keyChoice with
  | .lowest => BitVec.ofNat 8 (lowestKey s.kp)
  | .any =>
    let ks := pressedKeys s.kp
    BitVec.ofNat 8 (ks.getD (Config.freeKey s.env.draws % ks.length) 0)

/-- The record after the choice: a free choice counts as drawn. -/
def Env.afterKey (e : Env) : Env :=
  match params.keyChoice with
  | .lowest => e
  | .any => { e with draws := e.draws + 1 }

/-! ### Sprites -/

/-- The cell of pixel (`px`, `py`) (R33, R162); outside the grid by `GFX_EDGE` (D12; log 13). -/
def pixelCell (edge : GfxEdge) (px py : Nat) : Option (Fin 2048) :=
  match edge with
  | .wrap => some ⟨px % 64 + py % 32 * 64, by omega⟩
  | .clip => if h : px < 64 ∧ py < 32 then some ⟨px + py * 64, by omega⟩ else none

/-- Column `col` of a sprite row's byte is set; bit 7 is column 0 under `SPRITE_MSB_LEFT`
(R162, D13; log 14). -/
def spriteBit (b : Byte) (col : Nat) : Bool :=
  if params.spriteMsbLeft then b.getLsbD (7 - col) else b.getLsbD col

/-- The cells of one sprite row's set pixels, left to right. -/
def rowCells (vx y : Nat) (b : Byte) : List (Fin 2048) :=
  (List.range 8).filterMap fun col =>
    if spriteBit b col then pixelCell params.gfxEdge (vx + col) y else none

/-- The cells of a sprite's set pixels, rows from `y` downward (R162). -/
def spriteCells (vx : Nat) : Nat → List Byte → List (Fin 2048)
  | _, [] => []
  | y, b :: bs => rowCells vx y b ++ spriteCells vx (y + 1) bs

/-- Cell `k` of a buffer (R33). -/
def gfxCell (g : Gfx) (k : Fin 2048) : Bool := g[k.val / 64].getLsbD (k.val % 64)

/-- `GFX[k] <- GFX[k] XOR 1` (R162). -/
def gfxToggle (g : Gfx) (k : Fin 2048) : Gfx :=
  g.set (k.val / 64) (g[k.val / 64] ^^^ BitVec.twoPow 64 (k.val % 64))

/-- The buffer with every cell 0 (R161). -/
def gfxClear : Gfx := Vector.replicate 32 0

/-- Toggle cells one after another, noting whether one was set just before its toggle (R162). -/
def toggleCells : List (Fin 2048) → Gfx × Bool → Gfx × Bool
  | [], p => p
  | k :: ks, (g, hit) => toggleCells ks (gfxToggle g k, hit || gfxCell g k)

end Sys2Proof.Machine
end

