-- ==== Sys2Proof/Machine/ControlFlow.lean ====
section
/-! DEFINITION. The control-flow instructions (40_control_flow.md R100 to R109). -/

namespace Sys2Proof.Machine

/-- RET (R101). -/
def execRet (s : State) : Result := .next (s.popReturn (encode .ret))

/-- JP NNN (R102). -/
def execJp (nnn : Addr12) (s : State) : Result := .next (s.setPc (addrWord nnn))

/-- CALL NNN (R103). -/
def execCall (nnn : Addr12) (s : State) : Result :=
  .next (s.callTo (addrWord nnn) (encode (.call nnn)))

/-- SE Vx, NN (R104). -/
def execSeImm (x : Reg) (nn : Byte) (s : State) : Result :=
  .next (s.skipIf (decide (s.reg x = nn)))

/-- SNE Vx, NN (R105). -/
def execSneImm (x : Reg) (nn : Byte) (s : State) : Result :=
  .next (s.skipIf (decide (s.reg x ≠ nn)))

/-- SE Vx, Vy (R106); the low nibble is ignored (R81). -/
def execSeReg (x y : Reg) (_n : Nat) (s : State) : Result :=
  .next (s.skipIf (decide (s.reg x = s.reg y)))

/-- SNE Vx, Vy (R107); the low nibble is ignored (R81). -/
def execSneReg (x y : Reg) (_n : Nat) (s : State) : Result :=
  .next (s.skipIf (decide (s.reg x ≠ s.reg y)))

/-- JP V0, NNN (R108): the sum is not reduced to 12 bits. -/
def execJpV0 (nnn : Addr12) (s : State) : Result :=
  .next (s.setPc (addrWord nnn + byteWord (s.reg 0)))

end Sys2Proof.Machine
end

