-- ==== Sys2Proof/Machine/Graphics.lean ====
section
/-! DEFINITION. Graphics instructions (43_graphics.md R160 to R163). -/

namespace Sys2Proof.Machine

/-- CLS (R161): every cell cleared, `DF` set on every execution (D28; log 30). -/
def execCls (s : State) : Result := .next ({ s with gfx := gfxClear, df := true } : State).advance

/-- The buffer after a draw, and whether a set pixel turned clear (R162). All operands are read from
the state before the instruction (R23, C7). -/
def State.drawn (s : State) (x y : Reg) (n : Nat) : Gfx × Bool :=
  toggleCells (spriteCells (s.reg x).toNat (s.reg y).toNat (s.indexBytes n)) (s.gfx, false)

/-- DRW Vx, Vy, N (R162): VF is written and `DF` set on every execution (D28; log 30). -/
def execDrw (x y : Reg) (n : Nat) (s : State) : Result :=
  let d := s.drawn x y n
  .next (({ s with gfx := d.1, df := true } : State).setReg flagReg (flagByte d.2)).advance

end Sys2Proof.Machine
end

