-- ==== Sys2Proof/Machine/IndexMemory.lean ====
section
/-! DEFINITION. Index-pointer and memory instructions (42_index_memory.md R140 to R147). -/

namespace Sys2Proof.Machine

/-- LD I, NNN (R141). -/
def execLdI (nnn : Addr12) (s : State) : Result := .next (s.setI (addrWord nnn)).advance

/-- ADD I, Vx (R142): modulo 65536, no flag. -/
def execAddI (x : Reg) (s : State) : Result := .next (s.setI (s.i + byteWord (s.reg x))).advance

/-- LD F, Vx (R143): the whole byte is multiplied (D16; log 17). -/
def execLdF (x : Reg) (s : State) : Result := .next (s.setI (5 * byteWord (s.reg x))).advance

/-- LD B, Vx (R144): `I` is unchanged. -/
def execLdB (x : Reg) (s : State) : Result :=
  .next (s.indexStore (decimalDigits (s.reg x))).advance

/-- LD [I], Vx (R145): `I` is unchanged. -/
def execStoreRegs (x : Reg) (s : State) : Result :=
  .next (s.indexStore ((regRange x).map s.reg)).advance

/-- LD Vx, [I] (R146): `I` is unchanged. -/
def execLoadRegs (x : Reg) (s : State) : Result := .next (s.loadRange (regRange x)).advance

end Sys2Proof.Machine
end

