-- ==== Sys2Proof/Machine/KeypadTimerRandom.lean ====
section
/-! DEFINITION. Keypad, timer and random instructions (44_keypad_timer_random.md R170 to R177). -/

namespace Sys2Proof.Machine

/-- RND Vx, NN (R171): one request per execution, also when `NN` = 0 (D26; log 3). -/
def execRnd (x : Reg) (nn : Byte) (s : State) : Result :=
  .next (({ s with env := s.env.afterRng } : State).setReg x (s.env.rngByte &&& nn)).advance

/-- SKP Vx (R172): the sample of this iteration is tested. -/
def execSkp (x : Reg) (s : State) : Result := .next (s.skipIf (keyDown s.kp (s.reg x)))

/-- SKNP Vx (R173). -/
def execSknp (x : Reg) (s : State) : Result := .next (s.skipIf (! keyDown s.kp (s.reg x)))

/-- LD Vx, DT (R174). -/
def execLdVxDt (x : Reg) (s : State) : Result := .next (s.setReg x s.dt).advance

/-- LD Vx, K (R175): a fresh sample is taken (D29; log 29); with no key down `pc` stays, else the key
number is stored. -/
def execLdVxK (x : Reg) (s : State) : Result :=
  let t := s.sampleKeypad
  .next (if t.kp = 0 then t
    else (({ t with env := t.env.afterKey } : State).setReg x t.chosenKey).advance)

/-- LD DT, Vx (R176). -/
def execLdDt (x : Reg) (s : State) : Result := .next ({ s with dt := s.reg x } : State).advance

/-- LD ST, Vx (R177). -/
def execLdSt (x : Reg) (s : State) : Result := .next ({ s with st := s.reg x } : State).advance

end Sys2Proof.Machine
end

