-- ==== Sys2Proof/Machine/LoadAlu.lean ====
section
/-! DEFINITION. Load, arithmetic and logic instructions (41_load_alu.md R120 to R133). -/

namespace Sys2Proof.Machine

/-- LD Vx, NN (R121). -/
def execLdImm (x : Reg) (nn : Byte) (s : State) : Result := .next (s.setReg x nn).advance

/-- ADD Vx, NN (R122): no flag. -/
def execAddImm (x : Reg) (nn : Byte) (s : State) : Result :=
  .next (s.setReg x (sumByte (s.reg x) nn)).advance

/-- LD Vx, Vy (R123; direction PRESUMED, U6, log 28). -/
def execLdReg (x y : Reg) (s : State) : Result := .next (s.setReg x (s.reg y)).advance

/-- OR Vx, Vy (R124; log 28). -/
def execOrReg (x y : Reg) (s : State) : Result := .next (s.setReg x (s.reg x ||| s.reg y)).advance

/-- AND Vx, Vy (R125; log 28). -/
def execAndReg (x y : Reg) (s : State) : Result := .next (s.setReg x (s.reg x &&& s.reg y)).advance

/-- XOR Vx, Vy (R126; log 28). -/
def execXorReg (x y : Reg) (s : State) : Result := .next (s.setReg x (s.reg x ^^^ s.reg y)).advance

/-- ADD Vx, Vy (R127). -/
def execAddReg (x y : Reg) (s : State) : Result :=
  let a := s.reg x
  let b := s.reg y
  .next (s.writeFlagged x (sumByte a b) (carryFlag a b))

/-- SUB Vx, Vy (R128). -/
def execSub (x y : Reg) (s : State) : Result :=
  let a := s.reg x
  let b := s.reg y
  .next (s.writeFlagged x (diffByte a b) (notBorrowFlag a b))

/-- SHR Vx (R129): `Y` is ignored. -/
def execShr (x _y : Reg) (s : State) : Result :=
  let a := s.reg x
  .next (s.writeFlagged x (halfByte a) (lowBitFlag a))

/-- SUBN Vx, Vy (R130). -/
def execSubn (x y : Reg) (s : State) : Result :=
  let a := s.reg x
  let b := s.reg y
  .next (s.writeFlagged x (diffByte b a) (notBorrowFlag b a))

/-- SHL Vx (R131): `Y` is ignored. -/
def execShl (x _y : Reg) (s : State) : Result :=
  let a := s.reg x
  .next (s.writeFlagged x (doubleByte a) (highBitFlag a))

end Sys2Proof.Machine
end

