-- ==== Sys2Proof/Machine/RunLoop.lean ====
section
/-! DEFINITION. The run-loop state machine (49_run_loop_and_interfaces.md R190 to R195). -/

namespace Sys2Proof.Machine

/-- Phases 2 and 3 of an iteration, after the sample: fetch once, decode, execute exactly one
instruction, push if `DF` is set; an invalid word raises `InvalidOpcode` (R193, R195, R221). -/
def State.executeFetched (s : State) : Result :=
  match decodeWord s.fetch with
  | .error _ => .next (s.raise .invalidOpcode s.fetch).finish
  | .ok i =>
    match exec i s with
    | .next t => .next t.finish
    | .fault r => .fault r
    | .refused r => .refused r

/-- The core step (R190 (a)): `AwaitingTrigger` R192, `Running` R193, none in `Halted` (R194). -/
def State.coreStep (s : State) : Result :=
  match s.run with
  | .awaitingTrigger => .next s.awaitStart
  | .running => s.sampleKeypad.executeFetched
  | .halted => .fault .coreHalted

/-- What a turn does (R190, R203, R250). -/
def State.runTurn (t : Turn) (s : State) : Result :=
  match t with
  | .core => s.coreStep
  | .tick => .next s.tick
  | .load image => .next (s.load image)
  | .reset => .next s.restart

end Sys2Proof.Machine
end

