-- ==== Sys2Proof/Machine/Step.lean ====
section
/-! DEFINITION. One step of the machine: the next turn is taken and does its work. -/

namespace Sys2Proof.Machine

/-- One step (R190): who moves next is plain data of the state, or a free value (log 1). -/
def step (s : State) : Host.Outcome State Fault Refusal := State.runTurn s.env.turn s.takeTurn

/-- `s` with the word `w` stored where the next iteration fetches, the core running on a loaded
image, and the next turn the core's: this stands for the load and the start of R204 (log 26). -/
def State.withFetchWord (s : State) (nbits w : Nat) : State :=
  let op : Word := BitVec.ofNat 16 (w % 2 ^ nbits)
  let m := Memory.write s.mem (byteAddr s.pc 0) (op.extractLsb' 8 8)
  { s with
    mem    := Memory.write m (byteAddr s.pc 1) (op.extractLsb' 0 8)
    run    := .running
    loaded := true
    env    := { s.env with turns := .core :: s.env.turns } }

end Sys2Proof.Machine
end

