-- ==== Sys2Proof/Safety.lean ====
section
/-! DEFINITION. The terms claims use: what an instruction leaves unchanged, what a sprite covers, a
safe run, and the invariant of reachable states. -/

namespace Sys2Proof.Machine

/-! ### What stays unchanged -/

/-- The parts of the machine beside `pc`. -/
inductive Part where
  /-- `x[0]` to `x[15]`. -/
  | registers
  /-- `I`. -/
  | index
  /-- `SP` and `STACK`. -/
  | callStack
  /-- `DT`. -/
  | delayTimer
  /-- `ST`. -/
  | soundTimer
  /-- `GFX`, every cell. -/
  | pixels
  /-- `DF`. -/
  | drawFlag
  /-- `KP`. -/
  | keypadLatch
  /-- `MEM`, every byte. -/
  | memory
  /-- `RUN`, `FAULT`, `FAULT_INFO`. -/
  | runLoop
  /-- `loaded`. -/
  | loaded
  /-- The model's record of inputs and outputs. -/
  | outside
deriving DecidableEq, Repr

/-- The part is the same in both states. -/
def Part.same (s t : State) : Part → Prop
  | .registers => ∀ r, t.reg r = s.reg r
  | .index => t.i = s.i
  | .callStack => t.sp = s.sp ∧ t.stack = s.stack
  | .delayTimer => t.dt = s.dt
  | .soundTimer => t.st = s.st
  | .pixels => ∀ k, gfxCell t.gfx k = gfxCell s.gfx k
  | .drawFlag => t.df = s.df
  | .keypadLatch => t.kp = s.kp
  | .memory => ∀ a, t.byteAt a = s.byteAt a
  | .runLoop => t.run = s.run ∧ t.fault = s.fault ∧ t.faultInfo = s.faultInfo
  | .loaded => t.loaded = s.loaded
  | .outside => t.env = s.env

/-- Every part but those listed is the same; `pc` is not spoken of. -/
def SameBut (parts : List Part) (s t : State) : Prop := ∀ p, p ∉ parts → p.same s t

/-- Every register but `r` is the same. -/
def SameRegsBut (r : Reg) (s t : State) : Prop := ∀ q, q ≠ r → t.reg q = s.reg q

/-- Every byte of memory outside the addresses described is the same. -/
def SameBytesOutside (stored : Nat → Prop) (s t : State) : Prop :=
  ∀ a, ¬ stored a → t.byteAt a = s.byteAt a

/-- The instruction's word has the value under the mask (R75 to R80), and is the value plus what its
operand fields add. -/
def EncodedUnder (i : Instr) (mask val : Word) (operands : Nat) : Prop :=
  encode i &&& mask = val ∧ (encode i).toNat = val.toNat + operands

/-! ### Sprites -/

/-- Cell `k` is under a set bit of the sprite of `n` rows that `DRW Vx, Vy, N` reads at `I`: bit
`7 - col` of row `row` stands at column `(vx + col) mod 64`, row `(vy + row) mod 32` (R162). -/
def SpriteCovers (s : State) (x y : Reg) (n : Nat) (k : Fin 2048) : Prop :=
  ∃ row, row < n ∧ ∃ col, col < 8 ∧ (s.memRead s.i row).getLsbD (7 - col) = true ∧
    k.val = ((s.reg x).toNat + col) % 64 + ((s.reg y).toNat + row) % 32 * 64

/-! ### Safe runs and reachable states -/

/-- `n` steps, stopping at the first that stops. -/
def stepMany : Nat → State → Result
  | 0, s => .next s
  | n + 1, s =>
    match step s with
    | .next t => stepMany n t
    | .fault r => .fault r
    | .refused r => .refused r

/-- A safe state: the core has not halted on a fault (R211 (a)). -/
def Safe (s : State) : Prop := s.run ≠ .halted

/-- The cause recorded fits the machine: the word is invalid, or a call on a full stack, or a return
on an empty one (R220). -/
def FaultFits (s : State) : FaultCause → Prop
  | .none => True
  | .invalidOpcode => ∃ r, decodeWord s.faultInfo = .error r
  | .stackOverflow => s.sp.val = 16 ∧ ∃ nnn, s.faultInfo = encode (.call nnn)
  | .stackUnderflow => s.sp.val = 0 ∧ s.faultInfo = encode .ret

/-- The registers a program can see, the stack, the timers and the buffer are as reset leaves
them. -/
def AsReset (s : State) : Prop :=
  s.x = State.reset.x ∧ s.pc = State.reset.pc ∧ s.i = State.reset.i ∧ s.sp = State.reset.sp ∧
  s.stack = State.reset.stack ∧ s.dt = State.reset.dt ∧ s.st = State.reset.st ∧
  s.gfx = State.reset.gfx

/-- What holds of every reachable state (R44, R192, R203, R220, R227). -/
structure Inv (s : State) : Prop where
  /-- Memory keeps its canonical form (log 36). -/
  memCanonical : Memory.wf s.mem = true
  /-- `RUN` = `Halted` exactly when `FAULT` is not `None` (R44). -/
  haltedIffFault : s.run = .halted ↔ s.fault ≠ .none
  /-- `DF` is 0 between steps (R34, R44). -/
  drawFlagClear : s.df = false
  /-- Without a fault `FAULT_INFO` is 0 (R220). -/
  infoClear : s.fault = .none → s.faultInfo = 0
  /-- After the halt `FAULT_INFO` is the word at `pc` (R227). -/
  infoIsFaultingWord : s.run = .halted → s.faultInfo = s.fetch
  /-- The cause fits the word and the stack (R220). -/
  causeFits : FaultFits s s.fault
  /-- The core left `AwaitingTrigger` only on a loaded image (R192, R203). -/
  startedLoaded : s.run ≠ .awaitingTrigger → s.loaded = true
  /-- In `AwaitingTrigger` nothing but `KP`, `MEM` and `loaded` has left its reset value (R192, R200). -/
  awaitingAsReset : s.run = .awaitingTrigger → AsReset s

end Sys2Proof.Machine
end

