-- ==== Sys2Proof/Certificates/Slice0/Obligations.lean ====
section
/-! DEFINITION. The statements for the provers. Rules R<n> are those of spec/; "log n" is
notes/assumptions/n.md. -/

open Sys2Proof Sys2Proof.Machine

/-! ### Encoding -/

/-- Words of 95_test_vectors.md (X1 to X26) decode as listed there. -/
def Obligations.SampleWordsDecodeAsListed : Prop :=
  decodeWord 0x00E0 = .ok .cls ∧ decodeWord 0x00EE = .ok .ret ∧
  decodeWord 0x10E0 = .ok (.jp 0x0E0) ∧ decodeWord 0x6A7F = .ok (.ldImm 0xA 0x7F) ∧
  decodeWord 0x8AB4 = .ok (.addReg 0xA 0xB) ∧ decodeWord 0x5121 = .ok (.seReg 1 2 1) ∧
  decodeWord 0x9ABF = .ok (.sneReg 0xA 0xB 0xF) ∧ decodeWord 0xE19E = .ok (.skp 1) ∧
  decodeWord 0xE0A1 = .ok (.sknp 0) ∧ decodeWord 0xF107 = .ok (.ldVxDt 1) ∧
  decodeWord 0xFF65 = .ok (.loadRegs 0xF) ∧ decodeWord 0xDFFF = .ok (.drw 0xF 0xF 15) ∧
  decodeWord 0xBFFF = .ok (.jpV0 0xFFF) ∧ decodeWord 0xC000 = .ok (.rnd 0 0) ∧
  decodeWord 0x0123 = .error .invalidFamily0 ∧ decodeWord 0x8128 = .error .invalidFamily8 ∧
  decodeWord 0xE19F = .error .invalidFamilyE ∧ decodeWord 0xF1FF = .error .invalidFamilyF

/-- Decoding an encoded well-formed instruction gives it back, as a word and as bytes in memory
order with any bytes after it. -/
def Obligations.DecodeGivesBackEveryEncodedInstruction : Prop :=
  ∀ (i : Instr) (rest : List Byte), i.wellFormed = true →
    decodeWord (encode i) = .ok i ∧ decodeBytes (encodeBytes i ++ rest) = .ok (i, rest)

/-- A word that decodes is the encoding of what it decodes to, which is well-formed: no bit is
dropped, not even of an ignored field (log 32). -/
def Obligations.EncodeGivesBackEveryDecodedWord : Prop :=
  ∀ (op : Word) (i : Instr), decodeWord op = .ok i → encode i = op ∧ i.wellFormed = true

/-- The words that decode to no instruction are those R82 lists, family by family (log 19). -/
def Obligations.InvalidWordsAreThoseListed : Prop :=
  ∀ op : Word, (∃ r, decodeWord op = .error r) ↔
    (op.toNat < 0x1000 ∧ op ≠ 0x00E0 ∧ op ≠ 0x00EE) ∨
    (op.toNat / 0x1000 = 0x8 ∧ op.toNat % 0x10 ∈ [0x8, 0x9, 0xA, 0xB, 0xC, 0xD, 0xF]) ∨
    (op.toNat / 0x1000 = 0xE ∧ op.toNat % 0x100 ∉ [0x9E, 0xA1]) ∨
    (op.toNat / 0x1000 = 0xF ∧
      op.toNat % 0x100 ∉ [0x07, 0x0A, 0x15, 0x18, 0x1E, 0x29, 0x33, 0x55, 0x65])

/-- R84: a word is selected by at most one row of the table, and decodes to an instruction of the
row that selects it. -/
def Obligations.TableRowsAgreeWithTheDecoder : Prop :=
  (∀ (op : Word) (i j : Instr), (rowOf i).selects op = true → (rowOf j).selects op = true →
    rowOf i = rowOf j) ∧
  (∀ (op : Word) (i : Instr), decodeWord op = .ok i → (rowOf i).selects op = true) ∧
  (∀ (op : Word) (j : Instr), (rowOf j).selects op = true →
    ∃ i, decodeWord op = .ok i ∧ rowOf i = rowOf j)

/-! ### The step -/

/-- R193, R195: when the turn is the core's and it is running, the word at `pc` decides: the step is
one sample, then `exec` of the decoded instruction, then the end of the iteration. -/
def Obligations.StepRunsTheDecodedInstruction : Prop :=
  ∀ (s : State) (i : Instr), s.env.turn = .core → s.run = .running →
    decodeWord (s.byteAt (s.pc.toNat % 4096) ++ s.byteAt ((s.pc.toNat + 1) % 4096)) = .ok i →
    step s = match exec i s.takeTurn.sampleKeypad with
      | .next t => .next t.finish
      | .fault r => .fault r
      | .refused r => .refused r

/-- Phase 3 of R193: an iteration whose instruction left `RUN` = `Running` and `DF` = 1 hands the
whole buffer to the display once and clears `DF`, with `DF` = 0 it does nothing; a halted one does
nothing. -/
def Obligations.EndOfIterationPushesOnce : Prop :=
  ∀ s : State,
    (s.run = .running → s.df = true →
      s.finish.env.pushes = s.gfx :: s.env.pushes ∧ s.finish.df = false ∧ s.finish.pc = s.pc ∧
      SameBut [.drawFlag, .outside] s s.finish ∧ s.finish.env = { s.env with pushes := s.gfx :: s.env.pushes }) ∧
    (s.run = .running → s.df = false → s.finish = s) ∧
    (s.run = .halted → s.finish = s)

/-- R221, R226, R227 (log 20): executing an invalid word halts the core with `InvalidOpcode` and the
word, and changes nothing else but the sample taken in phase 1. -/
def Obligations.InvalidWordHaltsTheCore : Prop :=
  ∀ (s : State) (r : Reject), s.env.turn = .core → s.run = .running →
    decodeWord s.fetch = .error r →
    ∃ t, step s = .next t ∧ t.run = .halted ∧ t.fault = .invalidOpcode ∧ t.faultInfo = s.fetch ∧
      t.pc = s.pc ∧ t.kp = s.env.afterTurn.sample ∧ t.env = s.env.afterTurn.afterSample ∧
      SameBut [.keypadLatch, .runLoop, .outside] s t

/-- R220, R222, R223: a running core halts in a step exactly when the word at `pc` is invalid, or a
call with `SP` = 16, or a return with `SP` = 0, and `FAULT` and `FAULT_INFO` then say which. -/
def Obligations.CoreHaltsOnlyByItsThreeFaults : Prop :=
  ∀ s t : State, s.env.turn = .core → s.run = .running → step s = .next t →
    ((t.run = .halted ↔
      (∃ r, decodeWord s.fetch = .error r) ∨
      (∃ nnn, decodeWord s.fetch = .ok (.call nnn) ∧ s.sp.val = 16) ∨
      (decodeWord s.fetch = .ok .ret ∧ s.sp.val = 0)) ∧
    (t.run = .halted → t.faultInfo = s.fetch ∧ t.pc = s.pc ∧ t.env.pushes = s.env.pushes ∧
      (t.fault = .invalidOpcode ↔ ∃ r, decodeWord s.fetch = .error r) ∧
      (t.fault = .stackOverflow ↔ ∃ nnn, decodeWord s.fetch = .ok (.call nnn)) ∧
      (t.fault = .stackUnderflow ↔ decodeWord s.fetch = .ok .ret)))

/-- R191: the run loop's state changes in exactly three ways; that one sample, with `loaded` true,
starts the core is D21 (log 22), and the report in `FAULT` is D8 (log 20). -/
def Obligations.RunLoopHasExactlyThreeTransitions : Prop :=
  ∀ s t : State, step s = .next t → t.run = s.run ∨
    (s.env.turn = .reset ∧ t.run = .awaitingTrigger) ∨
    (s.env.turn = .core ∧ s.run = .awaitingTrigger ∧ t.run = .running ∧
      s.loaded = true ∧ t.kp.getLsbD 10 = true) ∨
    (s.env.turn = .core ∧ s.run = .running ∧ t.run = .halted ∧ t.fault ≠ .none)

/-- R192 (log 22): the core step in `AwaitingTrigger` samples the keypad, starts the core when an
image is loaded and key 0xA is down in that sample, and changes nothing else. -/
def Obligations.AwaitingStepWaitsForLoadedAndKeyA : Prop :=
  ∀ s : State, s.env.turn = .core → s.run = .awaitingTrigger →
    ∃ t, step s = .next t ∧ t.kp = s.env.afterTurn.sample ∧ t.env = s.env.afterTurn.afterSample ∧
      (t.run = if s.loaded = true ∧ s.env.afterTurn.sample.getLsbD 10 = true then .running
        else .awaitingTrigger) ∧
      t.fault = s.fault ∧ t.faultInfo = s.faultInfo ∧ t.pc = s.pc ∧
      SameBut [.keypadLatch, .runLoop, .outside] s t

/-- R194: in `Halted` no core step is enabled; the stop's name is the model's (log 21). -/
def Obligations.HaltedCoreTakesNoStep : Prop :=
  ∀ s : State, s.env.turn = .core → s.run = .halted → step s = .fault .coreHalted

/-- R194, R232: nothing but reset leaves `Halted`; until then every register, `pc`, memory, buffer
and stack keep their values, and only a tick changes anything, the timers alone. -/
def Obligations.OnlyResetLeavesHalted : Prop :=
  ∀ s t : State, s.run = .halted → s.env.turn ≠ .reset → step s = .next t →
    t.run = .halted ∧ t.pc = s.pc ∧ SameBut [.delayTimer, .soundTimer, .outside] s t ∧
    (s.env.turn ≠ .tick → t.dt = s.dt ∧ t.st = s.st)

/-- R200: a tick, in every run state (log 27), takes each timer that is above zero down by one and
changes nothing else. -/
def Obligations.TickCountsBothTimersDown : Prop :=
  ∀ s : State, s.env.turn = .tick →
    ∃ t, step s = .next t ∧ t.dt.toNat = s.dt.toNat - 1 ∧ t.st.toNat = s.st.toNat - 1 ∧
      t.pc = s.pc ∧ t.env = s.env.afterTurn ∧ SameBut [.delayTimer, .soundTimer, .outside] s t

/-- R200: after N ticks with nothing between, a timer that held V reads max(0, V - N). -/
def Obligations.NTicksLeaveTheFlooredDifference : Prop :=
  ∀ (n : Nat) (s : State) (rest : List Turn), s.env.turns = List.replicate n .tick ++ rest →
    ∃ t, stepMany n s = .next t ∧ t.dt.toNat = s.dt.toNat - n ∧
      t.st.toNat = s.st.toNat - n ∧ t.env.turns = rest ∧ t.pc = s.pc ∧
      SameBut [.delayTimer, .soundTimer, .outside] s t

/-- R201: a tick before or after an instruction that accesses no timer is the same. -/
def Obligations.TickCommutesWithUntimedInstructions : Prop :=
  ∀ (i : Instr) (s t : State), (∀ x, i ≠ .ldVxDt x ∧ i ≠ .ldDt x ∧ i ≠ .ldSt x) →
    exec i s = .next t → exec i s.tick = .next t.tick

/-- R199, R34: with `DF` = 0 before, an iteration pushes the buffer it leaves exactly once if its
instruction is `CLS` or `DRW`, else not at all, and leaves `DF` = 0. -/
def Obligations.OnePushPerClearOrDraw : Prop :=
  ∀ (s t : State) (i : Instr), s.env.turn = .core → s.run = .running → s.df = false →
    decodeWord s.fetch = .ok i → step s = .next t →
    t.df = false ∧
    ((i = .cls ∨ ∃ x y n, i = .drw x y n) → t.env.pushes = t.gfx :: s.env.pushes) ∧
    (¬ (i = .cls ∨ ∃ x y n, i = .drw x y n) → t.env.pushes = s.env.pushes)

/-- R60, R203 (log 23): a loader image of at most 1024 bytes, accepted while the core awaits its
trigger, stands at 0x200 upward and raises `loaded`; every other byte and part is unchanged. -/
def Obligations.LoadedImageStandsAtProgramBase : Prop :=
  ∀ (s : State) (image : List Byte), s.env.turn = .load image → s.run = .awaitingTrigger →
    s.loaded = false → image.length ≤ 1024 →
    ∃ t, step s = .next t ∧ t.loaded = true ∧ t.pc = s.pc ∧ t.env = s.env.afterTurn ∧
      (∀ k (h : k < image.length), t.byteAt (0x200 + k) = image[k]) ∧
      SameBytesOutside (fun a => 0x200 ≤ a ∧ a < 0x200 + image.length) s t ∧
      SameBut [.memory, .loaded, .outside] s t

/-- R203, U36 (log 23): an over-long image leaves `loaded` and everything else as it was. -/
def Obligations.OverlongImageIsNotLoaded : Prop :=
  ∀ (s : State) (image : List Byte), s.env.turn = .load image → 1024 < image.length →
    ∃ t, step s = .next t ∧ t.pc = s.pc ∧ t.env = s.env.afterTurn ∧ SameBut [.outside] s t

/-- R42, R250: the reset event, from any state, leaves `pc` = 0x0200, `SP` = `DT` = `ST` = 0, the
buffer clear, the font's 80 bytes, `RUN` = `AwaitingTrigger` and `loaded` false; the zero of V0 to VF,
`I`, `STACK`, `DF`, `KP`, `FAULT`, `FAULT_INFO` is D5, D7, D8 (log 5, log 6), and that the record of
inputs and outputs goes on is the model's (log 24). -/
def Obligations.ResetFromAnyState : Prop :=
  ∀ s : State, s.env.turn = .reset →
    ∃ t, step s = .next t ∧ t.pc = 0x0200 ∧ t.sp.val = 0 ∧ t.dt = 0 ∧ t.st = 0 ∧
      (∀ k, gfxCell t.gfx k = false) ∧ (∀ a, a < 0x50 → fontByte? a = some (t.byteAt a)) ∧
      t.run = .awaitingTrigger ∧ t.loaded = false ∧
      (∀ r, t.reg r = 0) ∧ t.i = 0 ∧ (∀ k (h : k < 16), t.stack[k] = 0) ∧ t.df = false ∧
      t.kp = 0 ∧ t.fault = .none ∧ t.faultInfo = 0 ∧
      t.env.turns = s.env.afterTurn.turns ∧ t.env.pushes = s.env.pushes

/-! ### Invariants -/

/-- The invariant holds right after reset. -/
def Obligations.ReachableInvariantHoldsAtReset : Prop := Inv State.reset

/-- Every step, of whatever turn, keeps the invariant. -/
def Obligations.EveryStepKeepsTheReachableInvariant : Prop :=
  ∀ s t : State, Inv s → step s = .next t → Inv t

/-! ### Memory and fetch -/

/-- R53, R61, with the wrap of R58 (log 10): a store at offset `k` from a base is read back at its
address, and every other byte is as before. -/
def Obligations.StoreIsReadBackAndNothingElseChanges : Prop :=
  ∀ (s : State) (b : Word) (k : Nat) (v : Byte) (a : Nat),
    (s.memWrite b k v).byteAt a = if a = (b.toNat + k) % 4096 then v else s.byteAt a

/-- R52, R58 (log 10): the fetch reads two bytes, high byte first, and the high four bits of `pc`
take no part. -/
def Obligations.FetchIsBigEndianAndWraps : Prop :=
  ∀ s : State, s.fetch.toNat =
      (s.byteAt (s.pc.toNat % 4096)).toNat * 256 + (s.byteAt ((s.pc.toNat + 1) % 4096)).toNat ∧
    ∀ a : Word, a.toNat % 4096 = s.pc.toNat % 4096 → (s.setPc a).fetch = s.fetch

/-- R64 (P9): a register dump over the next instruction is what the next fetch reads. -/
def Obligations.StoreOverNextInstructionIsFetched : Prop :=
  ∀ (s t : State) (x : Reg), s.i = s.pc + 2 → 1 ≤ x.val → exec (.storeRegs x) s = .next t →
    t.fetch = s.reg 0 ++ s.reg 1

/-! ### Control flow -/

/-- R102 (encoding: log 9): `JP NNN` sets `pc` to the address and changes nothing else. -/
def Obligations.JumpSetsPc : Prop :=
  ∀ (s : State) (nnn : Addr12),
    EncodedUnder (.jp nnn) 0xF000#16 0x1000#16 nnn.toNat ∧
    ∃ t, exec (.jp nnn) s = .next t ∧ t.pc.toNat = nnn.toNat ∧ SameBut [] s t

/-- R108: `JP V0, NNN` sets `pc` to NNN + V0, not reduced to 12 bits (log 10, log 11), and changes
nothing else. -/
def Obligations.JumpWithOffsetAddsV0 : Prop :=
  ∀ (s : State) (nnn : Addr12),
    ∃ t, exec (.jpV0 nnn) s = .next t ∧ t.pc.toNat = nnn.toNat + (s.reg 0).toNat ∧ SameBut [] s t

/-- R103, R31 (encoding: log 9; what a fault leaves: log 20): `CALL NNN` below 16 frames pushes its own address and jumps; with 16 frames it halts
the core with `StackOverflow` and its word, and changes nothing else. -/
def Obligations.CallPushesItsOwnAddressOrOverflows : Prop :=
  ∀ (s : State) (nnn : Addr12),
    EncodedUnder (.call nnn) 0xF000#16 0x2000#16 nnn.toNat ∧
    (s.sp.val < 16 → ∃ t, exec (.call nnn) s = .next t ∧ t.pc.toNat = nnn.toNat ∧
      t.sp.val = s.sp.val + 1 ∧
      (∀ k (h : k < 16), t.stack[k] = if k = s.sp.val then s.pc else s.stack[k]) ∧
      SameBut [.callStack] s t) ∧
    (s.sp.val = 16 → ∃ t, exec (.call nnn) s = .next t ∧ t.run = .halted ∧
      t.fault = .stackOverflow ∧ t.faultInfo = encode (.call nnn) ∧ t.pc = s.pc ∧
      SameBut [.runLoop] s t)

/-- R101, R31 (what a fault leaves: log 20): `RET` with frames pops one and continues 2 past the call
(modulo 65536, log 11); with
none it halts the core with `StackUnderflow` and 0x00EE, and changes nothing else. -/
def Obligations.ReturnPopsOrUnderflows : Prop :=
  ∀ s : State,
    (∀ k (h : k < 16), s.sp.val = k + 1 → ∃ t, exec .ret s = .next t ∧ t.sp.val = k ∧
      t.stack = s.stack ∧ t.pc.toNat = (s.stack[k].toNat + 2) % 65536 ∧ SameBut [.callStack] s t) ∧
    (s.sp.val = 0 → ∃ t, exec .ret s = .next t ∧ t.run = .halted ∧
      t.fault = .stackUnderflow ∧ t.faultInfo = 0x00EE ∧ t.pc = s.pc ∧ SameBut [.runLoop] s t)

/-- R101's property: a call, then a return with the stack and `SP` the call left, continues at the
instruction after the call with the stack pointer of before. -/
def Obligations.CallThenReturnContinuesAfterTheCall : Prop :=
  ∀ (s t u : State) (nnn : Addr12), s.sp.val < 16 → exec (.call nnn) s = .next t →
    u.sp = t.sp → u.stack = t.stack →
    ∃ v, exec .ret u = .next v ∧ v.pc = s.pc + 2 ∧ v.sp = s.sp

/-- R104, R105 (encodings: log 9): the skips on a byte. -/
def Obligations.SkipsOnAByte : Prop :=
  ∀ (s : State) (x : Reg) (nn : Byte),
    EncodedUnder (.seImm x nn) 0xF000#16 0x3000#16 (x.val * 256 + nn.toNat) ∧
    EncodedUnder (.sneImm x nn) 0xF000#16 0x4000#16 (x.val * 256 + nn.toNat) ∧
    (∃ t, exec (.seImm x nn) s = .next t ∧
      t.pc.toNat = (s.pc.toNat + if s.reg x = nn then 4 else 2) % 65536 ∧ SameBut [] s t) ∧
    (∃ t, exec (.sneImm x nn) s = .next t ∧
      t.pc.toNat = (s.pc.toNat + if s.reg x = nn then 2 else 4) % 65536 ∧ SameBut [] s t)

/-- R106, R107 (encodings: log 9; the low nibble is ignored: log 19): the skips on two registers. -/
def Obligations.SkipsOnTwoRegisters : Prop :=
  ∀ (s : State) (x y : Reg) (n : Nat),
    EncodedUnder (.seReg x y n) 0xF000#16 0x5000#16 (x.val * 256 + y.val * 16 + n % 16) ∧
    EncodedUnder (.sneReg x y n) 0xF000#16 0x9000#16 (x.val * 256 + y.val * 16 + n % 16) ∧
    (∃ t, exec (.seReg x y n) s = .next t ∧
      t.pc.toNat = (s.pc.toNat + if s.reg x = s.reg y then 4 else 2) % 65536 ∧ SameBut [] s t) ∧
    (∃ t, exec (.sneReg x y n) s = .next t ∧
      t.pc.toNat = (s.pc.toNat + if s.reg x = s.reg y then 2 else 4) % 65536 ∧ SameBut [] s t)

/-- R26 (the sums wrap at 16 bits: log 11): the value every instruction leaves in `pc`; which of the
two a key skip leaves is `KeySkipsTestBitVx`. -/
def Obligations.EveryInstructionsNewPc : Prop :=
  ∀ (i : Instr) (s t : State), exec i s = .next t →
    match i with
    | .jp nnn => t.pc.toNat = nnn.toNat
    | .call nnn => (s.sp.val < 16 → t.pc.toNat = nnn.toNat) ∧ (s.sp.val = 16 → t.pc = s.pc)
    | .jpV0 nnn => t.pc.toNat = nnn.toNat + (s.reg 0).toNat
    | .ret => (∀ k (h : k < 16), s.sp.val = k + 1 → t.pc = s.stack[k] + 2) ∧
        (s.sp.val = 0 → t.pc = s.pc)
    | .ldVxK _ => t.pc = if t.kp = 0 then s.pc else s.pc + 2
    | .seImm x nn => t.pc = if s.reg x = nn then s.pc + 4 else s.pc + 2
    | .sneImm x nn => t.pc = if s.reg x ≠ nn then s.pc + 4 else s.pc + 2
    | .seReg x y _ => t.pc = if s.reg x = s.reg y then s.pc + 4 else s.pc + 2
    | .sneReg x y _ => t.pc = if s.reg x ≠ s.reg y then s.pc + 4 else s.pc + 2
    | .skp _ => t.pc = s.pc + 4 ∨ t.pc = s.pc + 2
    | .sknp _ => t.pc = s.pc + 4 ∨ t.pc = s.pc + 2
    | _ => t.pc = s.pc + 2

/-! ### Load, arithmetic, logic -/

/-- R121, R122: load and add of a byte; no flag is written (the spec's own inference); `pc` goes to
`next` (R15). -/
def Obligations.LoadAndAddOfAByte : Prop :=
  ∀ (s : State) (x : Reg) (nn : Byte),
    EncodedUnder (.ldImm x nn) 0xF000#16 0x6000#16 (x.val * 256 + nn.toNat) ∧
    EncodedUnder (.addImm x nn) 0xF000#16 0x7000#16 (x.val * 256 + nn.toNat) ∧
    (∃ t, exec (.ldImm x nn) s = .next t ∧ t.reg x = nn ∧ t.pc = s.pc + 2 ∧
      SameRegsBut x s t ∧ SameBut [.registers] s t) ∧
    (∃ t, exec (.addImm x nn) s = .next t ∧ (t.reg x).toNat = ((s.reg x).toNat + nn.toNat) % 256 ∧
      t.pc = s.pc + 2 ∧ SameRegsBut x s t ∧ SameBut [.registers] s t)

/-- R123 to R126 (destination VX: log 28): move and bitwise operations, bit by bit; no flag is
written. -/
def Obligations.MoveAndLogicWriteVxOnly : Prop :=
  ∀ (s : State) (x y : Reg),
    (∃ t, exec (.ldReg x y) s = .next t ∧ t.reg x = s.reg y ∧
      t.pc = s.pc + 2 ∧ SameRegsBut x s t ∧ SameBut [.registers] s t) ∧
    (∃ t, exec (.orReg x y) s = .next t ∧
      (∀ k, (t.reg x).getLsbD k = ((s.reg x).getLsbD k || (s.reg y).getLsbD k)) ∧
      t.pc = s.pc + 2 ∧ SameRegsBut x s t ∧ SameBut [.registers] s t) ∧
    (∃ t, exec (.andReg x y) s = .next t ∧
      (∀ k, (t.reg x).getLsbD k = ((s.reg x).getLsbD k && (s.reg y).getLsbD k)) ∧
      t.pc = s.pc + 2 ∧ SameRegsBut x s t ∧ SameBut [.registers] s t) ∧
    (∃ t, exec (.xorReg x y) s = .next t ∧
      (∀ k, (t.reg x).getLsbD k = ((s.reg x).getLsbD k ^^ (s.reg y).getLsbD k)) ∧
      t.pc = s.pc + 2 ∧ SameRegsBut x s t ∧ SameBut [.registers] s t)

/-- R132: the arithmetic laws, on the instructions with a result register other than VF. -/
def Obligations.ArithmeticLawsOfResultAndFlag : Prop :=
  ∀ (s : State) (x y : Reg) (a b : Nat), x ≠ 15 → a = (s.reg x).toNat → b = (s.reg y).toNat →
    (∃ t, exec (.addReg x y) s = .next t ∧ (t.reg x).toNat = (a + b) % 256 ∧
      t.reg 15 = if a + b > 255 then 1 else 0) ∧
    (∃ t, exec (.sub x y) s = .next t ∧
      (t.reg x).toNat = (if a ≥ b then a - b else a + 256 - b) ∧
      t.reg 15 = if b > a then 0 else 1) ∧
    (∃ t, exec (.subn x y) s = .next t ∧
      (t.reg x).toNat = (if b ≥ a then b - a else b + 256 - a) ∧
      t.reg 15 = if a > b then 0 else 1) ∧
    (∃ t, exec (.shr x y) s = .next t ∧ (t.reg x).toNat = a / 2 ∧ (t.reg 15).toNat = a % 2) ∧
    (∃ t, exec (.shl x y) s = .next t ∧ (t.reg x).toNat = 2 * a % 256 ∧
      (t.reg 15).toNat = a / 128)

/-- R24, D4 (log 12): with VF as the result register the flag, computed from the old value, is what
remains. -/
def Obligations.FlagRemainsWhenResultRegisterIsVf : Prop :=
  ∀ (s : State) (y : Reg) (a b : Nat), a = (s.reg 15).toNat → b = (s.reg y).toNat →
    (∃ t, exec (.addReg 15 y) s = .next t ∧ t.reg 15 = if a + b > 255 then 1 else 0) ∧
    (∃ t, exec (.sub 15 y) s = .next t ∧ t.reg 15 = if b > a then 0 else 1) ∧
    (∃ t, exec (.subn 15 y) s = .next t ∧ t.reg 15 = if a > b then 0 else 1) ∧
    (∃ t, exec (.shr 15 y) s = .next t ∧ (t.reg 15).toNat = a % 2) ∧
    (∃ t, exec (.shl 15 y) s = .next t ∧ (t.reg 15).toNat = a / 128)

/-- R120: the five flag instructions change VX, VF and `pc` alone. -/
def Obligations.FlagInstructionsFrame : Prop :=
  ∀ (i : Instr) (s : State) (x y : Reg),
    i ∈ [.addReg x y, .sub x y, .shr x y, .subn x y, .shl x y] →
    ∃ t, exec i s = .next t ∧ t.pc = s.pc + 2 ∧ SameBut [.registers] s t ∧
      ∀ q, q ≠ x → q ≠ 15 → t.reg q = s.reg q

/-- R24: the two orders of `VF_ALIAS` agree when the result register is not VF, and differ as named
when it is. -/
def Obligations.VfAliasMattersOnlyForVf : Prop :=
  ∀ (s : State) (x : Reg) (result flag : Byte),
    (x ≠ 15 → s.writeBoth .flagLast x result flag = s.writeBoth .resultLast x result flag) ∧
    (s.writeBoth .flagLast 15 result flag).reg 15 = flag ∧
    (s.writeBoth .resultLast 15 result flag).reg 15 = result

/-! ### Index pointer and memory instructions -/

/-- R141 (encoding: log 9): `LD I, NNN`. -/
def Obligations.LoadIndexSetsI : Prop :=
  ∀ (s : State) (nnn : Addr12),
    EncodedUnder (.ldI nnn) 0xF000#16 0xA000#16 nnn.toNat ∧
    ∃ t, exec (.ldI nnn) s = .next t ∧ t.i.toNat = nnn.toNat ∧ t.pc = s.pc + 2 ∧
      SameBut [.index] s t

/-- R142 (modulo 65536: log 11) and R143 (the whole byte: log 17): `ADD I, Vx` and `LD F, Vx`; no flag
is written. -/
def Obligations.AddIndexAndGlyphAddress : Prop :=
  ∀ (s : State) (x : Reg),
    (∃ t, exec (.addI x) s = .next t ∧ t.i.toNat = (s.i.toNat + (s.reg x).toNat) % 65536 ∧
      t.pc = s.pc + 2 ∧ SameBut [.index] s t) ∧
    (∃ t, exec (.ldF x) s = .next t ∧ t.i.toNat = 5 * (s.reg x).toNat ∧
      t.pc = s.pc + 2 ∧ SameBut [.index] s t)

/-- R144, with the wrap of R147 (log 10): `LD B, Vx` stores hundreds, tens, units at `I`, `I + 1`,
`I + 2`, and every other byte is as before. -/
def Obligations.DecimalStoreWritesThreeDigits : Prop :=
  ∀ (s : State) (x : Reg),
    ∃ t, exec (.ldB x) s = .next t ∧
      (t.byteAt (s.i.toNat % 4096)).toNat = (s.reg x).toNat / 100 ∧
      (t.byteAt ((s.i.toNat + 1) % 4096)).toNat = (s.reg x).toNat / 10 % 10 ∧
      (t.byteAt ((s.i.toNat + 2) % 4096)).toNat = (s.reg x).toNat % 10 ∧
      SameBytesOutside (fun a => ∃ k, k < 3 ∧ a = byteAddr s.i k) s t ∧
      t.pc = s.pc + 2 ∧ SameBut [.memory] s t

/-- R145, with the wrap of R147 (log 10): `LD [I], Vx` stores V0 to VX at `I` upward, and every other
byte is as before; `I` is unchanged. -/
def Obligations.RegisterDumpStoresV0ToVx : Prop :=
  ∀ (s : State) (x : Reg),
    ∃ t, exec (.storeRegs x) s = .next t ∧
      (∀ r : Reg, r ≤ x → t.byteAt ((s.i.toNat + r.val) % 4096) = s.reg r) ∧
      SameBytesOutside (fun a => ∃ k, k ≤ x.val ∧ a = byteAddr s.i k) s t ∧
      t.pc = s.pc + 2 ∧ SameBut [.memory] s t

/-- R146, with the wrap of R147 (log 10): `LD Vx, [I]` loads V0 to VX from `I` upward; higher
registers, memory and `I` are unchanged. -/
def Obligations.RegisterLoadFillsV0ToVx : Prop :=
  ∀ (s : State) (x : Reg),
    ∃ t, exec (.loadRegs x) s = .next t ∧
      (∀ r : Reg, t.reg r = if r ≤ x then s.byteAt ((s.i.toNat + r.val) % 4096) else s.reg r) ∧
      t.pc = s.pc + 2 ∧ SameBut [.registers] s t

/-! ### Graphics -/

/-- R161: `CLS` clears every cell and sets `DF`, on every execution, also on a clear buffer (D28, C4:
log 30); `pc` goes to `next` (R15); VF and everything else is unchanged. -/
def Obligations.ClearScreenClearsEveryCell : Prop :=
  ∀ s : State,
    EncodedUnder .cls 0xFFFF#16 0x00E0#16 0 ∧
    ∃ t, exec .cls s = .next t ∧ (∀ k, gfxCell t.gfx k = false) ∧ t.df = true ∧
      t.pc = s.pc + 2 ∧ SameBut [.pixels, .drawFlag] s t

/-- R162 under `GFX_EDGE` = `wrap`, bit 7 leftmost, `DF` always set (log 13, log 14, log 30): `DRW`
flips exactly the cells under set sprite bits, VF says whether one of them was set, and nothing else
changes. -/
def Obligations.DrawFlipsExactlyTheSpritesCells : Prop :=
  ∀ (s : State) (x y : Reg) (n : Nat), n < 16 →
    ∃ t, exec (.drw x y n) s = .next t ∧
      (∀ k, SpriteCovers s x y n k → gfxCell t.gfx k = ! gfxCell s.gfx k) ∧
      (∀ k, ¬ SpriteCovers s x y n k → gfxCell t.gfx k = gfxCell s.gfx k) ∧
      ((∃ k, SpriteCovers s x y n k ∧ gfxCell s.gfx k = true) → t.reg 15 = 1) ∧
      (¬ (∃ k, SpriteCovers s x y n k ∧ gfxCell s.gfx k = true) → t.reg 15 = 0) ∧
      t.df = true ∧ t.pc = s.pc + 2 ∧ SameRegsBut 15 s t ∧
      SameBut [.registers, .pixels, .drawFlag] s t

/-- R163: drawing twice with the same coordinates, `I` and sprite bytes restores the buffer, and the
second draw reports a collision if the first set any pixel. -/
def Obligations.DrawingTwiceRestoresTheBuffer : Prop :=
  ∀ (s t t' u : State) (x y : Reg) (n : Nat), n < 16 → exec (.drw x y n) s = .next t →
    t'.gfx = t.gfx → t'.reg x = s.reg x → t'.reg y = s.reg y → t'.i = s.i →
    (∀ k, k < n → t'.memRead t'.i k = s.memRead s.i k) → exec (.drw x y n) t' = .next u →
    (∀ k, gfxCell u.gfx k = gfxCell s.gfx k) ∧
    ((∃ k, gfxCell s.gfx k = false ∧ gfxCell t.gfx k = true) → u.reg 15 = 1)

/-! ### Keypad, timers, random -/

/-- R171, R197: `RND` takes one byte from the random source, whatever it is, ANDs it with the mask,
and writes no flag. -/
def Obligations.RandomIsMaskedIntoVx : Prop :=
  ∀ (s : State) (x : Reg) (nn : Byte),
    ∃ t, exec (.rnd x nn) s = .next t ∧ t.reg x = s.env.rngByte &&& nn ∧
      t.env = s.env.afterRng ∧ t.pc = s.pc + 2 ∧ SameRegsBut x s t ∧
      SameBut [.registers, .outside] s t

/-- R172, R173 (a key number above 15 counts as not pressed: log 15): the key skips test bit VX of the
sample of this iteration. -/
def Obligations.KeySkipsTestBitVx : Prop :=
  ∀ (s : State) (x : Reg) (down : Bool),
    (down = true ↔ (s.reg x).toNat ≤ 15 ∧ s.kp.getLsbD (s.reg x).toNat = true) →
    (∃ t, exec (.skp x) s = .next t ∧ t.pc = (if down then s.pc + 4 else s.pc + 2) ∧
      SameBut [] s t) ∧
    (∃ t, exec (.sknp x) s = .next t ∧ t.pc = (if down then s.pc + 2 else s.pc + 4) ∧
      SameBut [] s t)

/-- R174, R176 (encodings: log 9): reading and setting the delay timer; no flag is written. -/
def Obligations.DelayTimerIsReadAndSet : Prop :=
  ∀ (s : State) (x : Reg),
    EncodedUnder (.ldVxDt x) 0xF0FF#16 0xF007#16 (x.val * 256) ∧
    EncodedUnder (.ldDt x) 0xF0FF#16 0xF015#16 (x.val * 256) ∧
    (∃ t, exec (.ldVxDt x) s = .next t ∧ t.reg x = s.dt ∧ t.pc = s.pc + 2 ∧
      SameRegsBut x s t ∧ SameBut [.registers] s t) ∧
    (∃ t, exec (.ldDt x) s = .next t ∧ t.dt = s.reg x ∧ t.pc = s.pc + 2 ∧
      SameBut [.delayTimer] s t)

/-- R177: setting the sound timer; nothing else changes. -/
def Obligations.SoundTimerIsSet : Prop :=
  ∀ (s : State) (x : Reg),
    ∃ t, exec (.ldSt x) s = .next t ∧ t.st = s.reg x ∧ t.pc = s.pc + 2 ∧
      SameBut [.soundTimer] s t

/-- R175 (fresh sample: log 29; lowest key: log 16): with some key down in the fresh sample, the
key-wait stores the lowest key's number in VX and goes on. -/
def Obligations.KeyWaitStoresTheLowestKey : Prop :=
  ∀ (s : State) (x : Reg) (k : Nat), k < 16 → s.env.sample.getLsbD k = true →
    (∀ j, j < k → s.env.sample.getLsbD j = false) →
    ∃ t, exec (.ldVxK x) s = .next t ∧ (t.reg x).toNat = k ∧ t.kp = s.env.sample ∧
      t.env = s.env.afterSample ∧ t.pc = s.pc + 2 ∧ SameRegsBut x s t ∧
      SameBut [.registers, .keypadLatch, .outside] s t

/-- R175: with no key down in the fresh sample, the key-wait leaves `pc` and everything but `KP`. -/
def Obligations.KeyWaitStaysWithoutAKey : Prop :=
  ∀ (s : State) (x : Reg), s.env.sample = 0 →
    ∃ t, exec (.ldVxK x) s = .next t ∧ t.pc = s.pc ∧ t.kp = 0 ∧ t.env = s.env.afterSample ∧
      SameBut [.keypadLatch, .outside] s t

/-! ### Rules over all instructions -/

/-- R22: `x[15]` is written by the six flag instructions and by those whose own destination it is,
and by no other. -/
def Obligations.OnlyFlagInstructionsWriteVfUnasked : Prop :=
  ∀ (i : Instr) (s t : State), exec i s = .next t →
    (∀ x y, i ≠ .addReg x y ∧ i ≠ .sub x y ∧ i ≠ .shr x y ∧ i ≠ .subn x y ∧ i ≠ .shl x y) →
    (∀ x y n, i ≠ .drw x y n) →
    (∀ y nn, i ≠ .ldImm 15 nn ∧ i ≠ .addImm 15 nn ∧ i ≠ .ldReg 15 y ∧ i ≠ .orReg 15 y ∧
      i ≠ .andReg 15 y ∧ i ≠ .xorReg 15 y ∧ i ≠ .rnd 15 nn ∧ i ≠ .ldVxDt 15 ∧ i ≠ .ldVxK 15 ∧
      i ≠ .loadRegs 15) →
    t.reg 15 = s.reg 15

/-- R30: only `CALL` and `RET` touch `STACK` and `SP`, and only they can halt the core. -/
def Obligations.OnlyCallAndReturnTouchTheStack : Prop :=
  ∀ (i : Instr) (s t : State), exec i s = .next t → i ≠ .ret → (∀ nnn, i ≠ .call nnn) →
    t.sp = s.sp ∧ t.stack = s.stack ∧ t.run = s.run ∧ t.fault = s.fault ∧
    t.faultInfo = s.faultInfo

/-- R28: only `LD I`, `ADD I` and `LD F` write the index pointer. -/
def Obligations.OnlyThreeInstructionsWriteTheIndex : Prop :=
  ∀ (i : Instr) (s t : State), exec i s = .next t → (∀ nnn, i ≠ .ldI nnn) →
    (∀ x, i ≠ .addI x ∧ i ≠ .ldF x) → t.i = s.i

/-- R51: only `LD B` and `LD [I]` change a byte of memory. -/
def Obligations.OnlyTwoInstructionsStore : Prop :=
  ∀ (i : Instr) (s t : State), exec i s = .next t → (∀ x, i ≠ .ldB x ∧ i ≠ .storeRegs x) →
    ∀ a, t.byteAt a = s.byteAt a

/-- R33, R34: only `CLS` and `DRW` change the buffer or the draw flag. -/
def Obligations.OnlyClearAndDrawTouchGraphics : Prop :=
  ∀ (i : Instr) (s t : State), exec i s = .next t → i ≠ .cls → (∀ x y n, i ≠ .drw x y n) →
    t.df = s.df ∧ ∀ k, gfxCell t.gfx k = gfxCell s.gfx k

/-- R32, R44: only `LD DT` and `LD ST` raise a timer: any other step, of whatever turn, leaves each
timer at its value or below. -/
def Obligations.TimersRiseOnlyByTheirInstructions : Prop :=
  ∀ s t : State, step s = .next t →
    ((∀ x, s.env.turn = .core → s.run = .running → decodeWord s.fetch ≠ .ok (.ldDt x)) →
      t.dt.toNat ≤ s.dt.toNat) ∧
    ((∀ x, s.env.turn = .core → s.run = .running → decodeWord s.fetch ≠ .ok (.ldSt x)) →
      t.st.toNat ≤ s.st.toNat)

/-- R35, R41: no instruction touches the loader's signal, the turns to come or the display record;
only the key-wait samples the keypad, and only `RND` takes a random byte. -/
def Obligations.InstructionsUseOnlyTheirInputs : Prop :=
  ∀ (i : Instr) (s t : State), exec i s = .next t →
    t.loaded = s.loaded ∧ t.env.turns = s.env.turns ∧ t.env.pushes = s.env.pushes ∧
    t.env.boots = s.env.boots ∧
    ((∀ x, i ≠ .ldVxK x) → t.kp = s.kp ∧ t.env.keypad = s.env.keypad) ∧
    ((∀ x nn, i ≠ .rnd x nn) → t.env.rng = s.env.rng)
end

