-- ==== Sys2Proof/Laws/State.lean ====
section
/-! SUPPORT. One lemma per field per update of the state, and the observers `reg`, `byteAt`, `fetch`
across the updates: no later proof unfolds a record update. -/

namespace Sys2Proof.Machine

variable (s : State)

/-! ### setReg -/

@[simp] theorem State.setReg_x (r : Reg) (v : Byte) : (s.setReg r v).x = s.x.set r.val v r.isLt := rfl
@[simp] theorem State.setReg_pc (r : Reg) (v : Byte) : (s.setReg r v).pc = s.pc := rfl
@[simp] theorem State.setReg_i (r : Reg) (v : Byte) : (s.setReg r v).i = s.i := rfl
@[simp] theorem State.setReg_sp (r : Reg) (v : Byte) : (s.setReg r v).sp = s.sp := rfl
@[simp] theorem State.setReg_stack (r : Reg) (v : Byte) : (s.setReg r v).stack = s.stack := rfl
@[simp] theorem State.setReg_dt (r : Reg) (v : Byte) : (s.setReg r v).dt = s.dt := rfl
@[simp] theorem State.setReg_st (r : Reg) (v : Byte) : (s.setReg r v).st = s.st := rfl
@[simp] theorem State.setReg_gfx (r : Reg) (v : Byte) : (s.setReg r v).gfx = s.gfx := rfl
@[simp] theorem State.setReg_df (r : Reg) (v : Byte) : (s.setReg r v).df = s.df := rfl
@[simp] theorem State.setReg_kp (r : Reg) (v : Byte) : (s.setReg r v).kp = s.kp := rfl
@[simp] theorem State.setReg_mem (r : Reg) (v : Byte) : (s.setReg r v).mem = s.mem := rfl
@[simp] theorem State.setReg_run (r : Reg) (v : Byte) : (s.setReg r v).run = s.run := rfl
@[simp] theorem State.setReg_fault (r : Reg) (v : Byte) : (s.setReg r v).fault = s.fault := rfl
@[simp] theorem State.setReg_faultInfo (r : Reg) (v : Byte) : (s.setReg r v).faultInfo = s.faultInfo := rfl
@[simp] theorem State.setReg_loaded (r : Reg) (v : Byte) : (s.setReg r v).loaded = s.loaded := rfl
@[simp] theorem State.setReg_env (r : Reg) (v : Byte) : (s.setReg r v).env = s.env := rfl

/-! ### setPc -/

@[simp] theorem State.setPc_x (a : Word) : (s.setPc a).x = s.x := rfl
@[simp] theorem State.setPc_pc (a : Word) : (s.setPc a).pc = a := rfl
@[simp] theorem State.setPc_i (a : Word) : (s.setPc a).i = s.i := rfl
@[simp] theorem State.setPc_sp (a : Word) : (s.setPc a).sp = s.sp := rfl
@[simp] theorem State.setPc_stack (a : Word) : (s.setPc a).stack = s.stack := rfl
@[simp] theorem State.setPc_dt (a : Word) : (s.setPc a).dt = s.dt := rfl
@[simp] theorem State.setPc_st (a : Word) : (s.setPc a).st = s.st := rfl
@[simp] theorem State.setPc_gfx (a : Word) : (s.setPc a).gfx = s.gfx := rfl
@[simp] theorem State.setPc_df (a : Word) : (s.setPc a).df = s.df := rfl
@[simp] theorem State.setPc_kp (a : Word) : (s.setPc a).kp = s.kp := rfl
@[simp] theorem State.setPc_mem (a : Word) : (s.setPc a).mem = s.mem := rfl
@[simp] theorem State.setPc_run (a : Word) : (s.setPc a).run = s.run := rfl
@[simp] theorem State.setPc_fault (a : Word) : (s.setPc a).fault = s.fault := rfl
@[simp] theorem State.setPc_faultInfo (a : Word) : (s.setPc a).faultInfo = s.faultInfo := rfl
@[simp] theorem State.setPc_loaded (a : Word) : (s.setPc a).loaded = s.loaded := rfl
@[simp] theorem State.setPc_env (a : Word) : (s.setPc a).env = s.env := rfl

/-! ### advance -/

@[simp] theorem State.advance_x : (s.advance).x = s.x := rfl
@[simp] theorem State.advance_pc : (s.advance).pc = s.pc + 2 := rfl
@[simp] theorem State.advance_i : (s.advance).i = s.i := rfl
@[simp] theorem State.advance_sp : (s.advance).sp = s.sp := rfl
@[simp] theorem State.advance_stack : (s.advance).stack = s.stack := rfl
@[simp] theorem State.advance_dt : (s.advance).dt = s.dt := rfl
@[simp] theorem State.advance_st : (s.advance).st = s.st := rfl
@[simp] theorem State.advance_gfx : (s.advance).gfx = s.gfx := rfl
@[simp] theorem State.advance_df : (s.advance).df = s.df := rfl
@[simp] theorem State.advance_kp : (s.advance).kp = s.kp := rfl
@[simp] theorem State.advance_mem : (s.advance).mem = s.mem := rfl
@[simp] theorem State.advance_run : (s.advance).run = s.run := rfl
@[simp] theorem State.advance_fault : (s.advance).fault = s.fault := rfl
@[simp] theorem State.advance_faultInfo : (s.advance).faultInfo = s.faultInfo := rfl
@[simp] theorem State.advance_loaded : (s.advance).loaded = s.loaded := rfl
@[simp] theorem State.advance_env : (s.advance).env = s.env := rfl

/-! ### skipIf -/

@[simp] theorem State.skipIf_x (c : Bool) : (s.skipIf c).x = s.x := rfl
@[simp] theorem State.skipIf_pc (c : Bool) : (s.skipIf c).pc = if c then s.pc + 4 else s.pc + 2 := rfl
@[simp] theorem State.skipIf_i (c : Bool) : (s.skipIf c).i = s.i := rfl
@[simp] theorem State.skipIf_sp (c : Bool) : (s.skipIf c).sp = s.sp := rfl
@[simp] theorem State.skipIf_stack (c : Bool) : (s.skipIf c).stack = s.stack := rfl
@[simp] theorem State.skipIf_dt (c : Bool) : (s.skipIf c).dt = s.dt := rfl
@[simp] theorem State.skipIf_st (c : Bool) : (s.skipIf c).st = s.st := rfl
@[simp] theorem State.skipIf_gfx (c : Bool) : (s.skipIf c).gfx = s.gfx := rfl
@[simp] theorem State.skipIf_df (c : Bool) : (s.skipIf c).df = s.df := rfl
@[simp] theorem State.skipIf_kp (c : Bool) : (s.skipIf c).kp = s.kp := rfl
@[simp] theorem State.skipIf_mem (c : Bool) : (s.skipIf c).mem = s.mem := rfl
@[simp] theorem State.skipIf_run (c : Bool) : (s.skipIf c).run = s.run := rfl
@[simp] theorem State.skipIf_fault (c : Bool) : (s.skipIf c).fault = s.fault := rfl
@[simp] theorem State.skipIf_faultInfo (c : Bool) : (s.skipIf c).faultInfo = s.faultInfo := rfl
@[simp] theorem State.skipIf_loaded (c : Bool) : (s.skipIf c).loaded = s.loaded := rfl
@[simp] theorem State.skipIf_env (c : Bool) : (s.skipIf c).env = s.env := rfl

/-! ### setI -/

@[simp] theorem State.setI_x (a : Word) : (s.setI a).x = s.x := rfl
@[simp] theorem State.setI_pc (a : Word) : (s.setI a).pc = s.pc := rfl
@[simp] theorem State.setI_i (a : Word) : (s.setI a).i = a := rfl
@[simp] theorem State.setI_sp (a : Word) : (s.setI a).sp = s.sp := rfl
@[simp] theorem State.setI_stack (a : Word) : (s.setI a).stack = s.stack := rfl
@[simp] theorem State.setI_dt (a : Word) : (s.setI a).dt = s.dt := rfl
@[simp] theorem State.setI_st (a : Word) : (s.setI a).st = s.st := rfl
@[simp] theorem State.setI_gfx (a : Word) : (s.setI a).gfx = s.gfx := rfl
@[simp] theorem State.setI_df (a : Word) : (s.setI a).df = s.df := rfl
@[simp] theorem State.setI_kp (a : Word) : (s.setI a).kp = s.kp := rfl
@[simp] theorem State.setI_mem (a : Word) : (s.setI a).mem = s.mem := rfl
@[simp] theorem State.setI_run (a : Word) : (s.setI a).run = s.run := rfl
@[simp] theorem State.setI_fault (a : Word) : (s.setI a).fault = s.fault := rfl
@[simp] theorem State.setI_faultInfo (a : Word) : (s.setI a).faultInfo = s.faultInfo := rfl
@[simp] theorem State.setI_loaded (a : Word) : (s.setI a).loaded = s.loaded := rfl
@[simp] theorem State.setI_env (a : Word) : (s.setI a).env = s.env := rfl

/-! ### raise -/

@[simp] theorem State.raise_x (f : FaultCause) (w : Word) : (s.raise f w).x = s.x := rfl
@[simp] theorem State.raise_pc (f : FaultCause) (w : Word) : (s.raise f w).pc = s.pc := rfl
@[simp] theorem State.raise_i (f : FaultCause) (w : Word) : (s.raise f w).i = s.i := rfl
@[simp] theorem State.raise_sp (f : FaultCause) (w : Word) : (s.raise f w).sp = s.sp := rfl
@[simp] theorem State.raise_stack (f : FaultCause) (w : Word) : (s.raise f w).stack = s.stack := rfl
@[simp] theorem State.raise_dt (f : FaultCause) (w : Word) : (s.raise f w).dt = s.dt := rfl
@[simp] theorem State.raise_st (f : FaultCause) (w : Word) : (s.raise f w).st = s.st := rfl
@[simp] theorem State.raise_gfx (f : FaultCause) (w : Word) : (s.raise f w).gfx = s.gfx := rfl
@[simp] theorem State.raise_df (f : FaultCause) (w : Word) : (s.raise f w).df = s.df := rfl
@[simp] theorem State.raise_kp (f : FaultCause) (w : Word) : (s.raise f w).kp = s.kp := rfl
@[simp] theorem State.raise_mem (f : FaultCause) (w : Word) : (s.raise f w).mem = s.mem := rfl
@[simp] theorem State.raise_run (f : FaultCause) (w : Word) : (s.raise f w).run = .halted := rfl
@[simp] theorem State.raise_fault (f : FaultCause) (w : Word) : (s.raise f w).fault = f := rfl
@[simp] theorem State.raise_faultInfo (f : FaultCause) (w : Word) : (s.raise f w).faultInfo = w := rfl
@[simp] theorem State.raise_loaded (f : FaultCause) (w : Word) : (s.raise f w).loaded = s.loaded := rfl
@[simp] theorem State.raise_env (f : FaultCause) (w : Word) : (s.raise f w).env = s.env := rfl

/-! ### sampleKeypad -/

@[simp] theorem State.sampleKeypad_x : (s.sampleKeypad).x = s.x := rfl
@[simp] theorem State.sampleKeypad_pc : (s.sampleKeypad).pc = s.pc := rfl
@[simp] theorem State.sampleKeypad_i : (s.sampleKeypad).i = s.i := rfl
@[simp] theorem State.sampleKeypad_sp : (s.sampleKeypad).sp = s.sp := rfl
@[simp] theorem State.sampleKeypad_stack : (s.sampleKeypad).stack = s.stack := rfl
@[simp] theorem State.sampleKeypad_dt : (s.sampleKeypad).dt = s.dt := rfl
@[simp] theorem State.sampleKeypad_st : (s.sampleKeypad).st = s.st := rfl
@[simp] theorem State.sampleKeypad_gfx : (s.sampleKeypad).gfx = s.gfx := rfl
@[simp] theorem State.sampleKeypad_df : (s.sampleKeypad).df = s.df := rfl
@[simp] theorem State.sampleKeypad_kp : (s.sampleKeypad).kp = s.env.sample := rfl
@[simp] theorem State.sampleKeypad_mem : (s.sampleKeypad).mem = s.mem := rfl
@[simp] theorem State.sampleKeypad_run : (s.sampleKeypad).run = s.run := rfl
@[simp] theorem State.sampleKeypad_fault : (s.sampleKeypad).fault = s.fault := rfl
@[simp] theorem State.sampleKeypad_faultInfo : (s.sampleKeypad).faultInfo = s.faultInfo := rfl
@[simp] theorem State.sampleKeypad_loaded : (s.sampleKeypad).loaded = s.loaded := rfl
@[simp] theorem State.sampleKeypad_env : (s.sampleKeypad).env = s.env.afterSample := rfl

/-! ### takeTurn -/

@[simp] theorem State.takeTurn_x : (s.takeTurn).x = s.x := rfl
@[simp] theorem State.takeTurn_pc : (s.takeTurn).pc = s.pc := rfl
@[simp] theorem State.takeTurn_i : (s.takeTurn).i = s.i := rfl
@[simp] theorem State.takeTurn_sp : (s.takeTurn).sp = s.sp := rfl
@[simp] theorem State.takeTurn_stack : (s.takeTurn).stack = s.stack := rfl
@[simp] theorem State.takeTurn_dt : (s.takeTurn).dt = s.dt := rfl
@[simp] theorem State.takeTurn_st : (s.takeTurn).st = s.st := rfl
@[simp] theorem State.takeTurn_gfx : (s.takeTurn).gfx = s.gfx := rfl
@[simp] theorem State.takeTurn_df : (s.takeTurn).df = s.df := rfl
@[simp] theorem State.takeTurn_kp : (s.takeTurn).kp = s.kp := rfl
@[simp] theorem State.takeTurn_mem : (s.takeTurn).mem = s.mem := rfl
@[simp] theorem State.takeTurn_run : (s.takeTurn).run = s.run := rfl
@[simp] theorem State.takeTurn_fault : (s.takeTurn).fault = s.fault := rfl
@[simp] theorem State.takeTurn_faultInfo : (s.takeTurn).faultInfo = s.faultInfo := rfl
@[simp] theorem State.takeTurn_loaded : (s.takeTurn).loaded = s.loaded := rfl
@[simp] theorem State.takeTurn_env : (s.takeTurn).env = s.env.afterTurn := rfl

/-! ### tick -/

@[simp] theorem State.tick_x : (s.tick).x = s.x := rfl
@[simp] theorem State.tick_pc : (s.tick).pc = s.pc := rfl
@[simp] theorem State.tick_i : (s.tick).i = s.i := rfl
@[simp] theorem State.tick_sp : (s.tick).sp = s.sp := rfl
@[simp] theorem State.tick_stack : (s.tick).stack = s.stack := rfl
@[simp] theorem State.tick_dt : (s.tick).dt = countDown s.dt := rfl
@[simp] theorem State.tick_st : (s.tick).st = countDown s.st := rfl
@[simp] theorem State.tick_gfx : (s.tick).gfx = s.gfx := rfl
@[simp] theorem State.tick_df : (s.tick).df = s.df := rfl
@[simp] theorem State.tick_kp : (s.tick).kp = s.kp := rfl
@[simp] theorem State.tick_mem : (s.tick).mem = s.mem := rfl
@[simp] theorem State.tick_run : (s.tick).run = s.run := rfl
@[simp] theorem State.tick_fault : (s.tick).fault = s.fault := rfl
@[simp] theorem State.tick_faultInfo : (s.tick).faultInfo = s.faultInfo := rfl
@[simp] theorem State.tick_loaded : (s.tick).loaded = s.loaded := rfl
@[simp] theorem State.tick_env : (s.tick).env = s.env := rfl

/-! ### pushDisplay -/

@[simp] theorem State.pushDisplay_x : (s.pushDisplay).x = s.x := rfl
@[simp] theorem State.pushDisplay_pc : (s.pushDisplay).pc = s.pc := rfl
@[simp] theorem State.pushDisplay_i : (s.pushDisplay).i = s.i := rfl
@[simp] theorem State.pushDisplay_sp : (s.pushDisplay).sp = s.sp := rfl
@[simp] theorem State.pushDisplay_stack : (s.pushDisplay).stack = s.stack := rfl
@[simp] theorem State.pushDisplay_dt : (s.pushDisplay).dt = s.dt := rfl
@[simp] theorem State.pushDisplay_st : (s.pushDisplay).st = s.st := rfl
@[simp] theorem State.pushDisplay_gfx : (s.pushDisplay).gfx = s.gfx := rfl
@[simp] theorem State.pushDisplay_df : (s.pushDisplay).df = false := rfl
@[simp] theorem State.pushDisplay_kp : (s.pushDisplay).kp = s.kp := rfl
@[simp] theorem State.pushDisplay_mem : (s.pushDisplay).mem = s.mem := rfl
@[simp] theorem State.pushDisplay_run : (s.pushDisplay).run = s.run := rfl
@[simp] theorem State.pushDisplay_fault : (s.pushDisplay).fault = s.fault := rfl
@[simp] theorem State.pushDisplay_faultInfo : (s.pushDisplay).faultInfo = s.faultInfo := rfl
@[simp] theorem State.pushDisplay_loaded : (s.pushDisplay).loaded = s.loaded := rfl
@[simp] theorem State.pushDisplay_env : (s.pushDisplay).env = { s.env with pushes := s.gfx :: s.env.pushes } := rfl

/-! ### memWrite -/

@[simp] theorem State.memWrite_x (b : Word) (k : Nat) (v : Byte) :
    (s.memWrite b k v).x = s.x := by unfold State.memWrite; split <;> rfl
@[simp] theorem State.memWrite_pc (b : Word) (k : Nat) (v : Byte) :
    (s.memWrite b k v).pc = s.pc := by unfold State.memWrite; split <;> rfl
@[simp] theorem State.memWrite_i (b : Word) (k : Nat) (v : Byte) :
    (s.memWrite b k v).i = s.i := by unfold State.memWrite; split <;> rfl
@[simp] theorem State.memWrite_sp (b : Word) (k : Nat) (v : Byte) :
    (s.memWrite b k v).sp = s.sp := by unfold State.memWrite; split <;> rfl
@[simp] theorem State.memWrite_stack (b : Word) (k : Nat) (v : Byte) :
    (s.memWrite b k v).stack = s.stack := by unfold State.memWrite; split <;> rfl
@[simp] theorem State.memWrite_dt (b : Word) (k : Nat) (v : Byte) :
    (s.memWrite b k v).dt = s.dt := by unfold State.memWrite; split <;> rfl
@[simp] theorem State.memWrite_st (b : Word) (k : Nat) (v : Byte) :
    (s.memWrite b k v).st = s.st := by unfold State.memWrite; split <;> rfl
@[simp] theorem State.memWrite_gfx (b : Word) (k : Nat) (v : Byte) :
    (s.memWrite b k v).gfx = s.gfx := by unfold State.memWrite; split <;> rfl
@[simp] theorem State.memWrite_df (b : Word) (k : Nat) (v : Byte) :
    (s.memWrite b k v).df = s.df := by unfold State.memWrite; split <;> rfl
@[simp] theorem State.memWrite_kp (b : Word) (k : Nat) (v : Byte) :
    (s.memWrite b k v).kp = s.kp := by unfold State.memWrite; split <;> rfl
@[simp] theorem State.memWrite_run (b : Word) (k : Nat) (v : Byte) :
    (s.memWrite b k v).run = s.run := by unfold State.memWrite; split <;> rfl
@[simp] theorem State.memWrite_fault (b : Word) (k : Nat) (v : Byte) :
    (s.memWrite b k v).fault = s.fault := by unfold State.memWrite; split <;> rfl
@[simp] theorem State.memWrite_faultInfo (b : Word) (k : Nat) (v : Byte) :
    (s.memWrite b k v).faultInfo = s.faultInfo := by unfold State.memWrite; split <;> rfl
@[simp] theorem State.memWrite_loaded (b : Word) (k : Nat) (v : Byte) :
    (s.memWrite b k v).loaded = s.loaded := by unfold State.memWrite; split <;> rfl
@[simp] theorem State.memWrite_env (b : Word) (k : Nat) (v : Byte) :
    (s.memWrite b k v).env = s.env := by unfold State.memWrite; split <;> rfl

theorem State.memWrite_mem (b : Word) (k : Nat) (v : Byte) :
    (s.memWrite b k v).mem = Memory.write s.mem (byteAddr b k) v := by
  simp [State.memWrite, params]

/-! ### The model's record of the outside -/

@[simp] theorem Env.afterSample_turns (e : Env) : e.afterSample.turns = e.turns := by unfold Env.afterSample; split <;> rfl
@[simp] theorem Env.afterSample_rng (e : Env) : e.afterSample.rng = e.rng := by unfold Env.afterSample; split <;> rfl
@[simp] theorem Env.afterSample_boots (e : Env) : e.afterSample.boots = e.boots := by unfold Env.afterSample; split <;> rfl
@[simp] theorem Env.afterSample_pushes (e : Env) : e.afterSample.pushes = e.pushes := by unfold Env.afterSample; split <;> rfl
@[simp] theorem Env.afterRng_turns (e : Env) : e.afterRng.turns = e.turns := by unfold Env.afterRng; split <;> rfl
@[simp] theorem Env.afterRng_keypad (e : Env) : e.afterRng.keypad = e.keypad := by unfold Env.afterRng; split <;> rfl
@[simp] theorem Env.afterRng_boots (e : Env) : e.afterRng.boots = e.boots := by unfold Env.afterRng; split <;> rfl
@[simp] theorem Env.afterRng_pushes (e : Env) : e.afterRng.pushes = e.pushes := by unfold Env.afterRng; split <;> rfl
@[simp] theorem Env.afterTurn_keypad (e : Env) : e.afterTurn.keypad = e.keypad := by unfold Env.afterTurn; split <;> rfl
@[simp] theorem Env.afterTurn_rng (e : Env) : e.afterTurn.rng = e.rng := by unfold Env.afterTurn; split <;> rfl
@[simp] theorem Env.afterTurn_boots (e : Env) : e.afterTurn.boots = e.boots := by unfold Env.afterTurn; split <;> rfl
@[simp] theorem Env.afterTurn_pushes (e : Env) : e.afterTurn.pushes = e.pushes := by unfold Env.afterTurn; split <;> rfl
@[simp] theorem Env.afterKey_turns (e : Env) : e.afterKey.turns = e.turns := by unfold Env.afterKey; split <;> rfl
@[simp] theorem Env.afterKey_keypad (e : Env) : e.afterKey.keypad = e.keypad := by unfold Env.afterKey; split <;> rfl
@[simp] theorem Env.afterKey_rng (e : Env) : e.afterKey.rng = e.rng := by unfold Env.afterKey; split <;> rfl
@[simp] theorem Env.afterKey_boots (e : Env) : e.afterKey.boots = e.boots := by unfold Env.afterKey; split <;> rfl
@[simp] theorem Env.afterKey_pushes (e : Env) : e.afterKey.pushes = e.pushes := by unfold Env.afterKey; split <;> rfl

@[simp] theorem Env.afterKey_eq (e : Env) : e.afterKey = e := rfl

/-! ### Registers -/

@[simp] theorem State.reg_setReg_self (r : Reg) (v : Byte) : (s.setReg r v).reg r = v := by
  simp [State.reg]

theorem State.reg_setReg_ne {r q : Reg} (h : q ≠ r) (v : Byte) :
    (s.setReg r v).reg q = s.reg q := by
  have : r.val ≠ q.val := fun e => h (Fin.ext e.symm)
  simp [State.reg, this]

theorem State.reg_setReg (r q : Reg) (v : Byte) :
    (s.setReg r v).reg q = if q = r then v else s.reg q := by
  by_cases h : q = r
  · subst h; simp
  · simp [h, State.reg_setReg_ne]

@[simp] theorem State.reg_setPc (a : Word) (r : Reg) : (s.setPc a).reg r = s.reg r := rfl
@[simp] theorem State.reg_advance (r : Reg) : (s.advance).reg r = s.reg r := rfl
@[simp] theorem State.reg_skipIf (c : Bool) (r : Reg) : (s.skipIf c).reg r = s.reg r := rfl
@[simp] theorem State.reg_setI (a : Word) (r : Reg) : (s.setI a).reg r = s.reg r := rfl
@[simp] theorem State.reg_raise (f : FaultCause) (w : Word) (r : Reg) : (s.raise f w).reg r = s.reg r := rfl
@[simp] theorem State.reg_sampleKeypad (r : Reg) : (s.sampleKeypad).reg r = s.reg r := rfl
@[simp] theorem State.reg_takeTurn (r : Reg) : (s.takeTurn).reg r = s.reg r := rfl
@[simp] theorem State.reg_tick (r : Reg) : (s.tick).reg r = s.reg r := rfl
@[simp] theorem State.reg_pushDisplay (r : Reg) : (s.pushDisplay).reg r = s.reg r := rfl
@[simp] theorem State.reg_memWrite (b : Word) (k : Nat) (v : Byte) (r : Reg) :
    (s.memWrite b k v).reg r = s.reg r := by simp [State.reg]

/-! ### Memory bytes -/

@[simp] theorem State.byteAt_setReg (r : Reg) (v : Byte) (k : Nat) : (s.setReg r v).byteAt k = s.byteAt k := rfl
@[simp] theorem State.byteAt_setPc (a : Word) (k : Nat) : (s.setPc a).byteAt k = s.byteAt k := rfl
@[simp] theorem State.byteAt_advance (k : Nat) : (s.advance).byteAt k = s.byteAt k := rfl
@[simp] theorem State.byteAt_skipIf (c : Bool) (k : Nat) : (s.skipIf c).byteAt k = s.byteAt k := rfl
@[simp] theorem State.byteAt_setI (a : Word) (k : Nat) : (s.setI a).byteAt k = s.byteAt k := rfl
@[simp] theorem State.byteAt_raise (f : FaultCause) (w : Word) (k : Nat) : (s.raise f w).byteAt k = s.byteAt k := rfl
@[simp] theorem State.byteAt_sampleKeypad (k : Nat) : (s.sampleKeypad).byteAt k = s.byteAt k := by simp [State.byteAt]
@[simp] theorem State.byteAt_takeTurn (k : Nat) : (s.takeTurn).byteAt k = s.byteAt k := by simp [State.byteAt]
@[simp] theorem State.byteAt_tick (k : Nat) : (s.tick).byteAt k = s.byteAt k := rfl
@[simp] theorem State.byteAt_pushDisplay (k : Nat) : (s.pushDisplay).byteAt k = s.byteAt k := rfl

/-! ### Fetch -/

@[simp] theorem State.fetch_setReg (r : Reg) (v : Byte) : (s.setReg r v).fetch = s.fetch := by
  simp [State.fetch, State.memRead]
@[simp] theorem State.fetch_setI (a : Word) : (s.setI a).fetch = s.fetch := by
  simp [State.fetch, State.memRead]
@[simp] theorem State.fetch_raise (f : FaultCause) (w : Word) : (s.raise f w).fetch = s.fetch := by
  simp [State.fetch, State.memRead]
@[simp] theorem State.fetch_sampleKeypad : (s.sampleKeypad).fetch = s.fetch := by
  simp [State.fetch, State.memRead]
@[simp] theorem State.fetch_takeTurn : (s.takeTurn).fetch = s.fetch := by
  simp [State.fetch, State.memRead]
@[simp] theorem State.fetch_tick : (s.tick).fetch = s.fetch := by
  simp [State.fetch, State.memRead]
@[simp] theorem State.fetch_pushDisplay : (s.pushDisplay).fetch = s.fetch := by
  simp [State.fetch, State.memRead]

end Sys2Proof.Machine
end

