-- ==== Sys2Proof/Laws/Memory.lean ====
section
/-! SUPPORT. Memory: every operation keeps the canonical form, and a read gives the latest write. -/

namespace Sys2Proof.Machine

/-! ### Canonical form -/

theorem Memory.wfFrom_mono {lo hi : Nat} {m : Memory} (h : lo ≤ hi)
    (w : Memory.wfFrom hi m = true) : Memory.wfFrom lo m = true := by
  cases m with
  | nil => rfl
  | cons c m =>
    obtain ⟨a, v⟩ := c
    simp only [Memory.wfFrom, Bool.and_eq_true, decide_eq_true_eq] at w ⊢
    exact ⟨⟨⟨by omega, w.1.1.2⟩, w.1.2⟩, w.2⟩

theorem Memory.wfFrom_put {lo a : Nat} {v : Byte} {m : Memory} (hlo : lo ≤ a) (ha : a < 4096)
    (hv : fontByte? a ≠ some v) (w : Memory.wfFrom lo m = true) :
    Memory.wfFrom lo (Memory.put m a v) = true := by
  induction m generalizing lo with
  | nil => simp [Memory.put, Memory.wfFrom, hlo, ha, hv]
  | cons c m ih =>
    obtain ⟨b, u⟩ := c
    simp only [Memory.wfFrom, Bool.and_eq_true, decide_eq_true_eq] at w
    obtain ⟨⟨⟨hb, hb4⟩, hu⟩, hm⟩ := w
    unfold Memory.put
    split
    · simp [Memory.wfFrom, hlo, ha, hv, hb4, hu, hm]; omega
    · split
      · rename_i h; subst h; simp [Memory.wfFrom, hlo, ha, hv, hm]
      · simp only [Memory.wfFrom, Bool.and_eq_true, decide_eq_true_eq]
        exact ⟨⟨⟨hb, hb4⟩, hu⟩, ih (by omega) hm⟩

theorem Memory.wfFrom_erase {lo a : Nat} {m : Memory} (w : Memory.wfFrom lo m = true) :
    Memory.wfFrom lo (Memory.erase m a) = true := by
  induction m generalizing lo with
  | nil => rfl
  | cons c m ih =>
    obtain ⟨b, u⟩ := c
    simp only [Memory.wfFrom, Bool.and_eq_true, decide_eq_true_eq] at w
    unfold Memory.erase
    split
    · exact ih (Memory.wfFrom_mono (by omega) w.2)
    · simp only [Memory.wfFrom, Bool.and_eq_true, decide_eq_true_eq]
      exact ⟨w.1, ih w.2⟩

/-- A write keeps the canonical form. -/
theorem Memory.wf_write {m : Memory} {a : Nat} (v : Byte) (ha : a < 4096)
    (w : Memory.wf m = true) : Memory.wf (Memory.write m a v) = true := by
  unfold Memory.write
  split
  · exact Memory.wfFrom_erase w
  · rename_i h; exact Memory.wfFrom_put (Nat.zero_le a) ha h w

/-- An image that stays inside the array keeps the canonical form. -/
theorem Memory.wf_writeImage {m : Memory} {a : Nat} (vs : List Byte) (ha : a + vs.length ≤ 4096)
    (w : Memory.wf m = true) : Memory.wf (Memory.writeImage m a vs) = true := by
  induction vs generalizing m a with
  | nil => exact w
  | cons v vs ih =>
    simp only [List.length_cons] at ha
    exact ih (by omega) (Memory.wf_write v (by omega) w)

theorem byteAddr_lt (b : Word) (k : Nat) : byteAddr b k < 4096 := Nat.mod_lt _ (by omega)

/-! ### Read after write -/

theorem Memory.find_put (m : Memory) (a c : Nat) (v : Byte) :
    Memory.find (Memory.put m a v) c = if c = a then some v else Memory.find m c := by
  induction m with
  | nil => simp [Memory.put, Memory.find]
  | cons d m ih =>
    obtain ⟨b, u⟩ := d
    unfold Memory.put
    split
    · simp [Memory.find]
    · split
      · rename_i h; subst h; simp only [Memory.find]; split <;> rfl
      · rename_i h1 h2
        simp only [Memory.find, ih]
        split
        · rename_i h; subst h; simp [Ne.symm h2]
        · rfl

theorem Memory.find_erase (m : Memory) (a c : Nat) :
    Memory.find (Memory.erase m a) c = if c = a then none else Memory.find m c := by
  induction m with
  | nil => simp [Memory.erase, Memory.find]
  | cons d m ih =>
    obtain ⟨b, u⟩ := d
    unfold Memory.erase
    split
    · rename_i e; subst e; rw [ih]; split <;> simp_all [Memory.find]
    · rename_i e
      simp only [Memory.find, ih]
      split
      · rename_i h; subst h; simp [Ne.symm e]
      · rfl

/-- Reading after a write: the byte written at its address, the former byte elsewhere. -/
theorem Memory.read_write (m : Memory) (boot a c : Nat) (v : Byte) :
    Memory.read boot (Memory.write m a v) c = if c = a then v else Memory.read boot m c := by
  unfold Memory.read Memory.write
  split
  · rename_i hf
    rw [Memory.find_erase]
    split
    · rename_i e; subst e; simp [Memory.unlisted, hf]
    · rfl
  · rw [Memory.find_put]; split <;> rfl

theorem Memory.read_writeImage (boot : Nat) (vs : List Byte) (m : Memory) (a c : Nat) :
    Memory.read boot (Memory.writeImage m a vs) c =
      if h : a ≤ c ∧ c < a + vs.length then vs[c - a]'(by omega) else Memory.read boot m c := by
  induction vs generalizing m a with
  | nil => rw [dif_neg (by simp only [List.length_nil]; omega)]; rfl
  | cons v vs ih =>
    simp only [Memory.writeImage, ih, Memory.read_write, List.length_cons]
    by_cases h : a + 1 ≤ c ∧ c < a + 1 + vs.length
    · rw [dif_pos h, dif_pos (by omega)]
      have e : c - a = (c - (a + 1)) + 1 := by omega
      simp [e]
    · rw [dif_neg h]
      by_cases e : c = a
      · subst e; simp
      · rw [if_neg e, dif_neg (by omega)]

/-! ### The state's bytes -/

/-- `MemWrite` then a read of any byte (R53). -/
theorem State.byteAt_memWrite (s : State) (b : Word) (k : Nat) (v : Byte) (a : Nat) :
    (s.memWrite b k v).byteAt a = if a = byteAddr b k then v else s.byteAt a := by
  simp [State.byteAt, State.memWrite_mem, Memory.read_write]

/-- Two offsets of one access, less than 4096 apart, never share a byte (R56). -/
theorem byteAddr_inj {b : Word} {j k : Nat} (hj : j < 4096) (hk : k < 4096)
    (h : byteAddr b j = byteAddr b k) : j = k := by
  unfold byteAddr at h; omega


/-- A string of stores leaves every byte outside its addresses alone. -/
theorem State.byteAt_storeFrom_other (s : State) (b : Word) (k : Nat) (vs : List Byte) (a : Nat)
    (h : ∀ j, j < vs.length → a ≠ byteAddr b (k + j)) :
    (s.storeFrom b k vs).byteAt a = s.byteAt a := by
  induction vs generalizing s k with
  | nil => rfl
  | cons v vs ih =>
    unfold State.storeFrom
    rw [ih _ (k + 1) (fun j hj => by
      have := h (j + 1) (by simp only [List.length_cons]; omega)
      rwa [Nat.add_assoc, Nat.add_comm 1 j])]
    rw [State.byteAt_memWrite, if_neg (by simpa using h 0 (by simp))]

/-- A string of stores puts each byte at its address. -/
theorem State.byteAt_storeFrom_at (s : State) (b : Word) (k : Nat) (vs : List Byte) (j : Nat)
    (hj : j < vs.length) (hlen : k + vs.length ≤ 4096) :
    (s.storeFrom b k vs).byteAt (byteAddr b (k + j)) = vs[j] := by
  induction vs generalizing s k j with
  | nil => simp at hj
  | cons v vs ih =>
    simp only [List.length_cons] at hj hlen
    unfold State.storeFrom
    cases j with
    | zero =>
      rw [State.byteAt_storeFrom_other _ _ _ _ _ (fun i hi e => by
        have := byteAddr_inj (by omega) (by omega) e; omega)]
      simp [State.byteAt_memWrite]
    | succ j =>
      have := ih (s.memWrite b k v) (k + 1) j (by omega) (by omega)
      simpa [Nat.add_assoc, Nat.add_comm 1 j] using this

/-- A string of stores keeps the canonical form. -/
theorem State.wf_storeFrom {s : State} (b : Word) (k : Nat) (vs : List Byte)
    (w : Memory.wf s.mem = true) : Memory.wf (s.storeFrom b k vs).mem = true := by
  induction vs generalizing s k with
  | nil => exact w
  | cons v vs ih =>
    refine ih _ ?_
    rw [State.memWrite_mem]
    exact Memory.wf_write v (byteAddr_lt b k) w

end Sys2Proof.Machine
end

