-- ==== Sys2Proof/Laws/Ops.lean ====
section
/-! SUPPORT. What each shared operation can do, said once: block store and load, call stack, flags,
keys, sprites, the end of an iteration, and the step's cases. -/

namespace Sys2Proof.Machine

/-! ### Block store: memory alone changes -/

@[simp] theorem State.storeFrom_x (s : State) (b : Word) (k : Nat) (vs : List Byte) :
    (s.storeFrom b k vs).x = s.x := by
  induction vs generalizing s k with
  | nil => rfl
  | cons v vs ih => exact (ih _ _).trans (s.memWrite_x b k v)

@[simp] theorem State.storeFrom_pc (s : State) (b : Word) (k : Nat) (vs : List Byte) :
    (s.storeFrom b k vs).pc = s.pc := by
  induction vs generalizing s k with
  | nil => rfl
  | cons v vs ih => exact (ih _ _).trans (s.memWrite_pc b k v)

@[simp] theorem State.storeFrom_i (s : State) (b : Word) (k : Nat) (vs : List Byte) :
    (s.storeFrom b k vs).i = s.i := by
  induction vs generalizing s k with
  | nil => rfl
  | cons v vs ih => exact (ih _ _).trans (s.memWrite_i b k v)

@[simp] theorem State.storeFrom_sp (s : State) (b : Word) (k : Nat) (vs : List Byte) :
    (s.storeFrom b k vs).sp = s.sp := by
  induction vs generalizing s k with
  | nil => rfl
  | cons v vs ih => exact (ih _ _).trans (s.memWrite_sp b k v)

@[simp] theorem State.storeFrom_stack (s : State) (b : Word) (k : Nat) (vs : List Byte) :
    (s.storeFrom b k vs).stack = s.stack := by
  induction vs generalizing s k with
  | nil => rfl
  | cons v vs ih => exact (ih _ _).trans (s.memWrite_stack b k v)

@[simp] theorem State.storeFrom_dt (s : State) (b : Word) (k : Nat) (vs : List Byte) :
    (s.storeFrom b k vs).dt = s.dt := by
  induction vs generalizing s k with
  | nil => rfl
  | cons v vs ih => exact (ih _ _).trans (s.memWrite_dt b k v)

@[simp] theorem State.storeFrom_st (s : State) (b : Word) (k : Nat) (vs : List Byte) :
    (s.storeFrom b k vs).st = s.st := by
  induction vs generalizing s k with
  | nil => rfl
  | cons v vs ih => exact (ih _ _).trans (s.memWrite_st b k v)

@[simp] theorem State.storeFrom_gfx (s : State) (b : Word) (k : Nat) (vs : List Byte) :
    (s.storeFrom b k vs).gfx = s.gfx := by
  induction vs generalizing s k with
  | nil => rfl
  | cons v vs ih => exact (ih _ _).trans (s.memWrite_gfx b k v)

@[simp] theorem State.storeFrom_df (s : State) (b : Word) (k : Nat) (vs : List Byte) :
    (s.storeFrom b k vs).df = s.df := by
  induction vs generalizing s k with
  | nil => rfl
  | cons v vs ih => exact (ih _ _).trans (s.memWrite_df b k v)

@[simp] theorem State.storeFrom_kp (s : State) (b : Word) (k : Nat) (vs : List Byte) :
    (s.storeFrom b k vs).kp = s.kp := by
  induction vs generalizing s k with
  | nil => rfl
  | cons v vs ih => exact (ih _ _).trans (s.memWrite_kp b k v)

@[simp] theorem State.storeFrom_run (s : State) (b : Word) (k : Nat) (vs : List Byte) :
    (s.storeFrom b k vs).run = s.run := by
  induction vs generalizing s k with
  | nil => rfl
  | cons v vs ih => exact (ih _ _).trans (s.memWrite_run b k v)

@[simp] theorem State.storeFrom_fault (s : State) (b : Word) (k : Nat) (vs : List Byte) :
    (s.storeFrom b k vs).fault = s.fault := by
  induction vs generalizing s k with
  | nil => rfl
  | cons v vs ih => exact (ih _ _).trans (s.memWrite_fault b k v)

@[simp] theorem State.storeFrom_faultInfo (s : State) (b : Word) (k : Nat) (vs : List Byte) :
    (s.storeFrom b k vs).faultInfo = s.faultInfo := by
  induction vs generalizing s k with
  | nil => rfl
  | cons v vs ih => exact (ih _ _).trans (s.memWrite_faultInfo b k v)

@[simp] theorem State.storeFrom_loaded (s : State) (b : Word) (k : Nat) (vs : List Byte) :
    (s.storeFrom b k vs).loaded = s.loaded := by
  induction vs generalizing s k with
  | nil => rfl
  | cons v vs ih => exact (ih _ _).trans (s.memWrite_loaded b k v)

@[simp] theorem State.storeFrom_env (s : State) (b : Word) (k : Nat) (vs : List Byte) :
    (s.storeFrom b k vs).env = s.env := by
  induction vs generalizing s k with
  | nil => rfl
  | cons v vs ih => exact (ih _ _).trans (s.memWrite_env b k v)

@[simp] theorem State.reg_storeFrom (s : State) (b : Word) (k : Nat) (vs : List Byte) (r : Reg) :
    (s.storeFrom b k vs).reg r = s.reg r := by simp [State.reg]

/-! ### Block load: registers alone change -/

@[simp] theorem State.loadRange_pc (s : State) (rs : List Reg) :
    (s.loadRange rs).pc = s.pc := by
  induction rs generalizing s with
  | nil => rfl
  | cons r rs ih => exact ih _

@[simp] theorem State.loadRange_i (s : State) (rs : List Reg) :
    (s.loadRange rs).i = s.i := by
  induction rs generalizing s with
  | nil => rfl
  | cons r rs ih => exact ih _

@[simp] theorem State.loadRange_sp (s : State) (rs : List Reg) :
    (s.loadRange rs).sp = s.sp := by
  induction rs generalizing s with
  | nil => rfl
  | cons r rs ih => exact ih _

@[simp] theorem State.loadRange_stack (s : State) (rs : List Reg) :
    (s.loadRange rs).stack = s.stack := by
  induction rs generalizing s with
  | nil => rfl
  | cons r rs ih => exact ih _

@[simp] theorem State.loadRange_dt (s : State) (rs : List Reg) :
    (s.loadRange rs).dt = s.dt := by
  induction rs generalizing s with
  | nil => rfl
  | cons r rs ih => exact ih _

@[simp] theorem State.loadRange_st (s : State) (rs : List Reg) :
    (s.loadRange rs).st = s.st := by
  induction rs generalizing s with
  | nil => rfl
  | cons r rs ih => exact ih _

@[simp] theorem State.loadRange_gfx (s : State) (rs : List Reg) :
    (s.loadRange rs).gfx = s.gfx := by
  induction rs generalizing s with
  | nil => rfl
  | cons r rs ih => exact ih _

@[simp] theorem State.loadRange_df (s : State) (rs : List Reg) :
    (s.loadRange rs).df = s.df := by
  induction rs generalizing s with
  | nil => rfl
  | cons r rs ih => exact ih _

@[simp] theorem State.loadRange_kp (s : State) (rs : List Reg) :
    (s.loadRange rs).kp = s.kp := by
  induction rs generalizing s with
  | nil => rfl
  | cons r rs ih => exact ih _

@[simp] theorem State.loadRange_mem (s : State) (rs : List Reg) :
    (s.loadRange rs).mem = s.mem := by
  induction rs generalizing s with
  | nil => rfl
  | cons r rs ih => exact ih _

@[simp] theorem State.loadRange_run (s : State) (rs : List Reg) :
    (s.loadRange rs).run = s.run := by
  induction rs generalizing s with
  | nil => rfl
  | cons r rs ih => exact ih _

@[simp] theorem State.loadRange_fault (s : State) (rs : List Reg) :
    (s.loadRange rs).fault = s.fault := by
  induction rs generalizing s with
  | nil => rfl
  | cons r rs ih => exact ih _

@[simp] theorem State.loadRange_faultInfo (s : State) (rs : List Reg) :
    (s.loadRange rs).faultInfo = s.faultInfo := by
  induction rs generalizing s with
  | nil => rfl
  | cons r rs ih => exact ih _

@[simp] theorem State.loadRange_loaded (s : State) (rs : List Reg) :
    (s.loadRange rs).loaded = s.loaded := by
  induction rs generalizing s with
  | nil => rfl
  | cons r rs ih => exact ih _

@[simp] theorem State.loadRange_env (s : State) (rs : List Reg) :
    (s.loadRange rs).env = s.env := by
  induction rs generalizing s with
  | nil => rfl
  | cons r rs ih => exact ih _

@[simp] theorem State.byteAt_loadRange (s : State) (rs : List Reg) (a : Nat) :
    (s.loadRange rs).byteAt a = s.byteAt a := by simp [State.byteAt]

/-- A block load gives each listed register the byte at its offset and leaves the others. -/
theorem State.reg_loadRange (s : State) (rs : List Reg) (q : Reg) :
    (s.loadRange rs).reg q = if q ∈ rs then s.indexRead q.val else s.reg q := by
  induction rs generalizing s with
  | nil => rfl
  | cons r rs ih =>
    have h : (s.loadRange (r :: rs)).reg q = ((s.setReg r (s.indexRead r.val)).loadRange rs).reg q :=
      rfl
    rw [h, ih]
    have hi : (s.setReg r (s.indexRead r.val)).indexRead q.val = s.indexRead q.val := rfl
    rw [hi]
    by_cases hq : q ∈ rs
    · simp [hq]
    · by_cases e : q = r
      · subst e; simp [hq]
      · simp [hq, e, State.reg_setReg_ne]

/-- V0 to VX are the registers up to `x`. -/
theorem mem_regRange (x r : Reg) : r ∈ regRange x ↔ r ≤ x := by
  revert x r; decide

theorem length_regRange (x : Reg) : (regRange x).length = x.val + 1 := by
  revert x; decide

theorem getElem_regRange (x r : Reg) (h : r ≤ x) :
    (regRange x)[r.val]'(by rw [length_regRange]; exact Nat.lt_succ_of_le h) = r := by
  have : ∀ x r : Reg, r ≤ x → (regRange x)[r.val]? = some r := by decide
  have e := this x r h
  rw [List.getElem?_eq_some_iff] at e
  exact e.2

/-! ### Call stack -/

/-- A call pushes and jumps, or overflows. -/
theorem State.callTo_cases (s : State) (target op : Word) :
    (∃ h : s.sp.val < 16, s.callTo target op =
      { s with stack := s.stack.set s.sp.val s.pc h, sp := ⟨s.sp.val + 1, by omega⟩, pc := target }) ∨
    (s.sp.val = 16 ∧ s.callTo target op = s.raise .stackOverflow op) := by
  unfold State.callTo
  split
  · rename_i h; exact .inl ⟨h, rfl⟩
  · exact .inr ⟨by omega, rfl⟩

/-- A return pops, or underflows. -/
theorem State.popReturn_cases (s : State) (op : Word) :
    (∃ h : 0 < s.sp.val, s.popReturn op =
      { s with sp := ⟨s.sp.val - 1, by omega⟩, pc := s.stack[s.sp.val - 1] + 2 }) ∨
    (s.sp.val = 0 ∧ s.popReturn op = s.raise .stackUnderflow op) := by
  unfold State.popReturn
  split
  · rename_i h; exact .inl ⟨h, rfl⟩
  · exact .inr ⟨by omega, rfl⟩

/-! ### Result and flag -/

@[simp] theorem State.writeFlagged_i (s : State) (r : Reg) (a b : Byte) :
    (s.writeFlagged r a b).i = s.i := rfl
@[simp] theorem State.writeFlagged_sp (s : State) (r : Reg) (a b : Byte) :
    (s.writeFlagged r a b).sp = s.sp := rfl
@[simp] theorem State.writeFlagged_stack (s : State) (r : Reg) (a b : Byte) :
    (s.writeFlagged r a b).stack = s.stack := rfl
@[simp] theorem State.writeFlagged_dt (s : State) (r : Reg) (a b : Byte) :
    (s.writeFlagged r a b).dt = s.dt := rfl
@[simp] theorem State.writeFlagged_st (s : State) (r : Reg) (a b : Byte) :
    (s.writeFlagged r a b).st = s.st := rfl
@[simp] theorem State.writeFlagged_gfx (s : State) (r : Reg) (a b : Byte) :
    (s.writeFlagged r a b).gfx = s.gfx := rfl
@[simp] theorem State.writeFlagged_df (s : State) (r : Reg) (a b : Byte) :
    (s.writeFlagged r a b).df = s.df := rfl
@[simp] theorem State.writeFlagged_kp (s : State) (r : Reg) (a b : Byte) :
    (s.writeFlagged r a b).kp = s.kp := rfl
@[simp] theorem State.writeFlagged_mem (s : State) (r : Reg) (a b : Byte) :
    (s.writeFlagged r a b).mem = s.mem := rfl
@[simp] theorem State.writeFlagged_run (s : State) (r : Reg) (a b : Byte) :
    (s.writeFlagged r a b).run = s.run := rfl
@[simp] theorem State.writeFlagged_fault (s : State) (r : Reg) (a b : Byte) :
    (s.writeFlagged r a b).fault = s.fault := rfl
@[simp] theorem State.writeFlagged_faultInfo (s : State) (r : Reg) (a b : Byte) :
    (s.writeFlagged r a b).faultInfo = s.faultInfo := rfl
@[simp] theorem State.writeFlagged_loaded (s : State) (r : Reg) (a b : Byte) :
    (s.writeFlagged r a b).loaded = s.loaded := rfl
@[simp] theorem State.writeFlagged_env (s : State) (r : Reg) (a b : Byte) :
    (s.writeFlagged r a b).env = s.env := rfl
@[simp] theorem State.writeFlagged_pc (s : State) (r : Reg) (a b : Byte) :
    (s.writeFlagged r a b).pc = s.pc + 2 := rfl
@[simp] theorem State.byteAt_writeFlagged (s : State) (r : Reg) (a b : Byte) (k : Nat) :
    (s.writeFlagged r a b).byteAt k = s.byteAt k := rfl

/-- The flag is written last: VF ends as the flag, `r` as the result unless it is VF (R24). -/
theorem State.reg_writeFlagged (s : State) (r q : Reg) (a b : Byte) :
    (s.writeFlagged r a b).reg q = if q = 15 then b else if q = r then a else s.reg q := by
  simp only [State.writeFlagged, State.writeBoth, params, flagReg, State.reg_advance,
    State.reg_setReg]

/-! ### Flags as numbers -/

theorem toNat_sumByte (a b : Byte) : (sumByte a b).toNat = (a.toNat + b.toNat) % 256 := by
  simp [sumByte]

theorem toNat_diffByte (a b : Byte) :
    (diffByte a b).toNat = if a.toNat ≥ b.toNat then a.toNat - b.toNat else a.toNat + 256 - b.toNat := by
  have ha := a.isLt
  have hb := b.isLt
  simp only [diffByte, BitVec.toNat_ofInt]
  split <;> omega

theorem toNat_halfByte (a : Byte) : (halfByte a).toNat = a.toNat / 2 := by
  have := a.isLt
  simp only [halfByte, BitVec.toNat_ofNat]; omega

theorem toNat_doubleByte (a : Byte) : (doubleByte a).toNat = 2 * a.toNat % 256 := by
  simp [doubleByte]

theorem toNat_lowBitFlag (a : Byte) : (lowBitFlag a).toNat = a.toNat % 2 := by
  revert a; decide

theorem toNat_highBitFlag (a : Byte) : (highBitFlag a).toNat = a.toNat / 128 := by
  revert a; decide

/-! ### Keys -/

/-- The lowest key is the one with no lower key down. -/
theorem lowestKey_eq {kp : Word} {k : Nat} (hk : k < 16) (h : kp.getLsbD k = true)
    (hlow : ∀ j, j < k → kp.getLsbD j = false) : lowestKey kp = k := by
  have split16 : List.range 16 = List.range k ++ (k :: (List.range' (k + 1) (15 - k))) := by
    have : ∀ k : Fin 16, List.range 16 =
        List.range k.val ++ (k.val :: (List.range' (k.val + 1) (15 - k.val))) := by decide
    exact this ⟨k, hk⟩
  have empty : (List.range k).filter (fun j => kp.getLsbD j) = [] := by
    rw [List.filter_eq_nil_iff]
    intro j hj
    simp [hlow j (List.mem_range.mp hj)]
  simp [lowestKey, pressedKeys, split16, List.filter_append, empty, h]

/-! ### The buffer -/

/-- Toggling a cell flips it and no other. -/
theorem gfxCell_toggle (g : Gfx) (k j : Fin 2048) :
    gfxCell (gfxToggle g k) j = (gfxCell g j ^^ decide (j = k)) := by
  have hj := j.isLt
  have hk := k.isLt
  unfold gfxCell gfxToggle
  by_cases hrow : k.val / 64 = j.val / 64
  · simp only [hrow, Vector.getElem_set_self, BitVec.getLsbD_xor, BitVec.getLsbD_twoPow]
    congr 1
    have : (k.val % 64 = j.val % 64) ↔ j = k := by
      constructor
      · intro h; exact Fin.ext (by omega)
      · intro h; rw [h]
    have lt : k.val % 64 < 64 := by omega
    simp [lt, this]
  · rw [Vector.getElem_set_ne (h := hrow)]
    have : j ≠ k := fun e => hrow (by rw [e])
    simp [this]

theorem gfxCell_clear (k : Fin 2048) : gfxCell gfxClear k = false := by
  simp [gfxCell, gfxClear]

/-- Toggling a list of distinct cells flips exactly the listed ones. -/
theorem gfxCell_toggleCells (ks : List (Fin 2048)) (hn : ks.Nodup) (g : Gfx) (hit : Bool)
    (j : Fin 2048) :
    gfxCell (toggleCells ks (g, hit)).1 j = (gfxCell g j ^^ decide (j ∈ ks)) := by
  induction ks generalizing g hit with
  | nil => simp [toggleCells]
  | cons k ks ih =>
    rw [List.nodup_cons] at hn
    simp only [toggleCells]
    rw [ih hn.2, gfxCell_toggle]
    by_cases e : j = k
    · subst e; simp [hn.1]
    · simp [e]

/-- The hit bit says whether some listed cell was set, for distinct cells. -/
theorem hit_toggleCells (ks : List (Fin 2048)) (hn : ks.Nodup) (g : Gfx) (hit : Bool) :
    (toggleCells ks (g, hit)).2 = (hit || ks.any fun k => gfxCell g k) := by
  induction ks generalizing g hit with
  | nil => simp [toggleCells]
  | cons k ks ih =>
    rw [List.nodup_cons] at hn
    have same : (ks.any fun c => gfxCell (gfxToggle g k) c) = ks.any fun c => gfxCell g c := by
      rw [Bool.eq_iff_iff, List.any_eq_true, List.any_eq_true]
      refine exists_congr fun c => and_congr_right fun hc => ?_
      have : c ≠ k := fun e => hn.1 (e ▸ hc)
      simp [gfxCell_toggle, this]
    simp only [toggleCells, ih hn.2, same, List.any_cons, Bool.or_assoc]

/-! ### Sprite cells (wrap, bit 7 leftmost) -/

theorem mem_rowCells (vx y : Nat) (b : Byte) (k : Fin 2048) :
    k ∈ rowCells vx y b ↔ ∃ col, col < 8 ∧ b.getLsbD (7 - col) = true ∧
      k.val = (vx + col) % 64 + y % 32 * 64 := by
  simp only [rowCells, List.mem_filterMap, List.mem_range, spriteBit, params, pixelCell]
  refine exists_congr fun col => and_congr_right fun _ => ?_
  by_cases hb : b.getLsbD (7 - col) = true
  · simp [hb, Fin.ext_iff, eq_comm]
  · simp [hb]

theorem mem_spriteCells (vx y : Nat) (bs : List Byte) (k : Fin 2048) :
    k ∈ spriteCells vx y bs ↔ ∃ row, ∃ h : row < bs.length, ∃ col, col < 8 ∧
      bs[row].getLsbD (7 - col) = true ∧ k.val = (vx + col) % 64 + (y + row) % 32 * 64 := by
  induction bs generalizing y with
  | nil => simp [spriteCells]
  | cons b bs ih =>
    rw [spriteCells, List.mem_append, mem_rowCells, ih]
    constructor
    · rintro (⟨col, hc, hb, hk⟩ | ⟨row, hr, col, hc, hb, hk⟩)
      · exact ⟨0, by simp, col, hc, by simpa using hb, by simpa using hk⟩
      · exact ⟨row + 1, by simpa using hr, col, hc, by simpa using hb, by
          rw [show y + (row + 1) = y + 1 + row by omega]; exact hk⟩
    · rintro ⟨row, hr, col, hc, hb, hk⟩
      cases row with
      | zero => exact .inl ⟨col, hc, by simpa using hb, by simpa using hk⟩
      | succ row =>
        exact .inr ⟨row, by simpa using hr, col, hc, by simpa using hb, by
          rw [show y + 1 + row = y + (row + 1) by omega]; exact hk⟩

theorem nodup_rowCells (vx y : Nat) (b : Byte) : (rowCells vx y b).Nodup := by
  unfold rowCells List.Nodup
  rw [List.pairwise_filterMap]
  refine List.Pairwise.imp_of_mem ?_ (List.pairwise_lt_range (n := 8))
  intro c d hc hd hlt p hp q hq e
  rw [List.mem_range] at hc hd
  simp only [params, pixelCell] at hp hq
  split at hp <;> [skip; cases hp]
  split at hq <;> [skip; cases hq]
  injection hp with hp
  injection hq with hq
  rw [← hp, ← hq, Fin.mk.injEq] at e
  omega

/-- No two pixels of one sprite of at most 32 rows fall on the same cell (R162). -/
theorem nodup_spriteCells (vx y : Nat) (bs : List Byte) (h : bs.length ≤ 32) :
    (spriteCells vx y bs).Nodup := by
  induction bs generalizing y with
  | nil => exact List.nodup_nil
  | cons b bs ih =>
    rw [List.length_cons] at h
    rw [spriteCells, List.nodup_append]
    refine ⟨nodup_rowCells vx y b, ih (y + 1) (by omega), ?_⟩
    intro k hk l hl e
    subst e
    rw [mem_rowCells] at hk
    rw [mem_spriteCells] at hl
    obtain ⟨c, _, _, e1⟩ := hk
    obtain ⟨row, hr, d, _, _, e2⟩ := hl
    omega

/-! ### The end of an iteration -/

@[simp] theorem State.finish_x (s : State) : s.finish.x = s.x := by
  unfold State.finish; split <;> [rfl; (split <;> rfl); (split <;> rfl)]
@[simp] theorem State.finish_pc (s : State) : s.finish.pc = s.pc := by
  unfold State.finish; split <;> [rfl; (split <;> rfl); (split <;> rfl)]
@[simp] theorem State.finish_i (s : State) : s.finish.i = s.i := by
  unfold State.finish; split <;> [rfl; (split <;> rfl); (split <;> rfl)]
@[simp] theorem State.finish_sp (s : State) : s.finish.sp = s.sp := by
  unfold State.finish; split <;> [rfl; (split <;> rfl); (split <;> rfl)]
@[simp] theorem State.finish_stack (s : State) : s.finish.stack = s.stack := by
  unfold State.finish; split <;> [rfl; (split <;> rfl); (split <;> rfl)]
@[simp] theorem State.finish_dt (s : State) : s.finish.dt = s.dt := by
  unfold State.finish; split <;> [rfl; (split <;> rfl); (split <;> rfl)]
@[simp] theorem State.finish_st (s : State) : s.finish.st = s.st := by
  unfold State.finish; split <;> [rfl; (split <;> rfl); (split <;> rfl)]
@[simp] theorem State.finish_gfx (s : State) : s.finish.gfx = s.gfx := by
  unfold State.finish; split <;> [rfl; (split <;> rfl); (split <;> rfl)]
@[simp] theorem State.finish_kp (s : State) : s.finish.kp = s.kp := by
  unfold State.finish; split <;> [rfl; (split <;> rfl); (split <;> rfl)]
@[simp] theorem State.finish_mem (s : State) : s.finish.mem = s.mem := by
  unfold State.finish; split <;> [rfl; (split <;> rfl); (split <;> rfl)]
@[simp] theorem State.finish_run (s : State) : s.finish.run = s.run := by
  unfold State.finish; split <;> [rfl; (split <;> rfl); (split <;> rfl)]
@[simp] theorem State.finish_fault (s : State) : s.finish.fault = s.fault := by
  unfold State.finish; split <;> [rfl; (split <;> rfl); (split <;> rfl)]
@[simp] theorem State.finish_faultInfo (s : State) : s.finish.faultInfo = s.faultInfo := by
  unfold State.finish; split <;> [rfl; (split <;> rfl); (split <;> rfl)]
@[simp] theorem State.finish_loaded (s : State) : s.finish.loaded = s.loaded := by
  unfold State.finish; split <;> [rfl; (split <;> rfl); (split <;> rfl)]

theorem State.finish_env_boots (s : State) : s.finish.env.boots = s.env.boots := by
  unfold State.finish; split <;> [rfl; (split <;> rfl); (split <;> rfl)]

@[simp] theorem State.byteAt_finish (s : State) (a : Nat) : s.finish.byteAt a = s.byteAt a := by
  simp [State.byteAt, State.finish_env_boots]

@[simp] theorem State.reg_finish (s : State) (r : Reg) : s.finish.reg r = s.reg r := by
  simp [State.reg]

@[simp] theorem State.fetch_finish (s : State) : s.finish.fetch = s.fetch := by
  simp [State.fetch, State.memRead]

/-! ### The key-wait -/

/-- With no key down in the fresh sample only `KP` (and the model's record) changes; else the chosen
key is stored and `pc` advances (R175). -/
theorem execLdVxK_cases (x : Reg) (s : State) :
    (s.env.sample = 0 ∧ execLdVxK x s = .next s.sampleKeypad) ∨
    (s.env.sample ≠ 0 ∧ execLdVxK x s =
      .next (s.sampleKeypad.setReg x (BitVec.ofNat 8 (lowestKey s.env.sample))).advance) := by
  by_cases h : s.env.sample = 0
  · have h' : s.sampleKeypad.kp = 0 := h
    exact .inl ⟨h, by simp only [execLdVxK]; rw [if_pos h']⟩
  · have h' : ¬ s.sampleKeypad.kp = 0 := h
    refine .inr ⟨h, ?_⟩
    simp only [execLdVxK]; rw [if_neg h']; rfl

/-! ### Every instruction answers a next state -/

/-- No instruction stops: a fault of the machine is a next state too (R226). -/
theorem exec_next (i : Instr) (s : State) : ∃ t, exec i s = .next t := by
  cases i <;> exact ⟨_, rfl⟩

/-- What a step can do, turn by turn (R190, R192, R193, R200, R203, R250). -/
theorem step_cases {s t : State} (h : step s = .next t) :
    (s.env.turn = .tick ∧ t = s.takeTurn.tick) ∨
    (∃ image, s.env.turn = .load image ∧ t = s.takeTurn.load image) ∨
    (s.env.turn = .reset ∧ t = s.takeTurn.restart) ∨
    (s.env.turn = .core ∧ s.run = .awaitingTrigger ∧ t = s.takeTurn.awaitStart) ∨
    (s.env.turn = .core ∧ s.run = .running ∧ (∃ r, decodeWord s.fetch = .error r) ∧
      t = (s.takeTurn.sampleKeypad.raise .invalidOpcode s.fetch).finish) ∨
    (s.env.turn = .core ∧ s.run = .running ∧ ∃ i u, decodeWord s.fetch = .ok i ∧
      exec i s.takeTurn.sampleKeypad = .next u ∧ t = u.finish) := by
  unfold step State.runTurn at h
  cases ht : s.env.turn with
  | tick => rw [ht] at h; exact .inl ⟨rfl, by injection h with h; exact h.symm⟩
  | load image =>
    rw [ht] at h; exact .inr (.inl ⟨image, rfl, by injection h with h; exact h.symm⟩)
  | reset => rw [ht] at h; exact .inr (.inr (.inl ⟨rfl, by injection h with h; exact h.symm⟩))
  | core =>
    rw [ht] at h
    simp only [State.coreStep, State.takeTurn_run] at h
    cases hr : s.run with
    | awaitingTrigger =>
      rw [hr] at h; exact .inr (.inr (.inr (.inl ⟨rfl, rfl, by injection h with h; exact h.symm⟩)))
    | halted => rw [hr] at h; simp at h
    | running =>
      rw [hr] at h
      simp only [State.executeFetched, State.fetch_sampleKeypad, State.fetch_takeTurn] at h
      cases hd : decodeWord s.fetch with
      | error r =>
        rw [hd] at h
        exact .inr (.inr (.inr (.inr (.inl ⟨rfl, rfl, ⟨r, rfl⟩, by injection h with h; exact h.symm⟩))))
      | ok i =>
        obtain ⟨u, hu⟩ := exec_next i s.takeTurn.sampleKeypad
        rw [hd] at h
        simp only [hu] at h
        exact .inr (.inr (.inr (.inr (.inr ⟨rfl, rfl, i, u, rfl, hu, by
          injection h with h; exact h.symm⟩))))

end Sys2Proof.Machine
end

