-- ==== Sys2Proof/Laws/Decode.lean ====
section
/-! SUPPORT. Words and fields as numbers: each field of a word by division and remainder, and each
encoded word as the sum of its fields. -/

namespace Sys2Proof

/-! ### Fields of a word -/

theorem fields_f_toNat (op : Word) : (fields op).f.toNat = op.toNat / 4096 := by
  have := op.isLt
  simp only [fields, BitVec.extractLsb'_toNat, Nat.shiftRight_eq_div_pow]; omega

theorem fields_x_val (op : Word) : (fields op).x.val = op.toNat / 256 % 16 := by
  simp [fields, Nat.shiftRight_eq_div_pow]

theorem fields_y_val (op : Word) : (fields op).y.val = op.toNat / 16 % 16 := by
  simp [fields, Nat.shiftRight_eq_div_pow]

theorem fields_n_toNat (op : Word) : (fields op).n.toNat = op.toNat % 16 := by
  simp [fields]

theorem fields_nn_toNat (op : Word) : (fields op).nn.toNat = op.toNat % 256 := by
  simp [fields]

theorem fields_nnn_toNat (op : Word) : (fields op).nnn.toNat = op.toNat % 4096 := by
  simp [fields]

/-! ### Encoded words as numbers -/

theorem toNat_append_lt {w v : Nat} (a : BitVec w) (b : BitVec v) :
    (a ++ b).toNat = a.toNat * 2 ^ v + b.toNat := by
  rw [BitVec.toNat_append, ← Nat.shiftLeft_add_eq_or_of_lt b.isLt, Nat.shiftLeft_eq]

theorem toNat_wordNNN (f : BitVec 4) (nnn : Addr12) :
    (wordNNN f nnn).toNat = f.toNat * 4096 + nnn.toNat := by
  unfold wordNNN; exact toNat_append_lt f nnn

theorem toNat_wordXNN (f : BitVec 4) (x : Reg) (nn : Byte) :
    (wordXNN f x nn).toNat = f.toNat * 4096 + x.val * 256 + nn.toNat := by
  have e : (wordXNN f x nn).toNat = (f.toNat * 2 ^ 4 + x.val) * 2 ^ 8 + nn.toNat := by
    unfold wordXNN
    refine (toNat_append_lt (f ++ BitVec.ofFin (w := 4) x) nn).trans ?_
    have hx : (BitVec.ofFin (w := 4) x).toNat = x.val := rfl
    rw [toNat_append_lt, hx]
  rw [e]; ring

theorem toNat_wordXYN (f : BitVec 4) (x y : Reg) (n : BitVec 4) :
    (wordXYN f x y n).toNat = f.toNat * 4096 + x.val * 256 + y.val * 16 + n.toNat := by
  have e : (wordXYN f x y n).toNat =
      ((f.toNat * 2 ^ 4 + x.val) * 2 ^ 4 + y.val) * 2 ^ 4 + n.toNat := by
    unfold wordXYN
    refine (toNat_append_lt (f ++ BitVec.ofFin (w := 4) x ++ BitVec.ofFin (w := 4) y) n).trans ?_
    have hx : (BitVec.ofFin (w := 4) x).toNat = x.val := rfl
    have hy : (BitVec.ofFin (w := 4) y).toNat = y.val := rfl
    rw [toNat_append_lt, toNat_append_lt, hx, hy]
  rw [e]; ring

/-! ### The fields of an encoded word -/

@[simp] theorem fields_wordNNN_f (f : BitVec 4) (nnn : Addr12) : (fields (wordNNN f nnn)).f = f := by
  apply BitVec.eq_of_toNat_eq
  rw [fields_f_toNat, toNat_wordNNN]; omega

@[simp] theorem fields_wordNNN_nnn (f : BitVec 4) (nnn : Addr12) :
    (fields (wordNNN f nnn)).nnn = nnn := by
  apply BitVec.eq_of_toNat_eq
  rw [fields_nnn_toNat, toNat_wordNNN]; omega

@[simp] theorem fields_wordXNN_f (f : BitVec 4) (x : Reg) (nn : Byte) :
    (fields (wordXNN f x nn)).f = f := by
  apply BitVec.eq_of_toNat_eq
  rw [fields_f_toNat, toNat_wordXNN]; omega

@[simp] theorem fields_wordXNN_x (f : BitVec 4) (x : Reg) (nn : Byte) :
    (fields (wordXNN f x nn)).x = x := by
  apply Fin.ext
  rw [fields_x_val, toNat_wordXNN]; omega

@[simp] theorem fields_wordXNN_nn (f : BitVec 4) (x : Reg) (nn : Byte) :
    (fields (wordXNN f x nn)).nn = nn := by
  apply BitVec.eq_of_toNat_eq
  rw [fields_nn_toNat, toNat_wordXNN]; omega

@[simp] theorem fields_wordXYN_f (f : BitVec 4) (x y : Reg) (n : BitVec 4) :
    (fields (wordXYN f x y n)).f = f := by
  apply BitVec.eq_of_toNat_eq
  rw [fields_f_toNat, toNat_wordXYN]; omega

@[simp] theorem fields_wordXYN_x (f : BitVec 4) (x y : Reg) (n : BitVec 4) :
    (fields (wordXYN f x y n)).x = x := by
  apply Fin.ext
  rw [fields_x_val, toNat_wordXYN]; omega

@[simp] theorem fields_wordXYN_y (f : BitVec 4) (x y : Reg) (n : BitVec 4) :
    (fields (wordXYN f x y n)).y = y := by
  apply Fin.ext
  rw [fields_y_val, toNat_wordXYN]; omega

@[simp] theorem fields_wordXYN_n (f : BitVec 4) (x y : Reg) (n : BitVec 4) :
    (fields (wordXYN f x y n)).n = n := by
  apply BitVec.eq_of_toNat_eq
  rw [fields_n_toNat, toNat_wordXYN]; omega

/-! ### A word rebuilt from its fields -/

theorem wordNNN_fields (op : Word) {f : BitVec 4} (h : (fields op).f = f) :
    wordNNN f (fields op).nnn = op := by
  subst h
  apply BitVec.eq_of_toNat_eq
  rw [toNat_wordNNN, fields_f_toNat, fields_nnn_toNat]; omega

theorem wordXNN_fields (op : Word) {f : BitVec 4} {nn : Byte} (h : (fields op).f = f)
    (hn : (fields op).nn = nn) : wordXNN f (fields op).x nn = op := by
  subst h; subst hn
  apply BitVec.eq_of_toNat_eq
  rw [toNat_wordXNN, fields_f_toNat, fields_x_val, fields_nn_toNat]; omega

theorem wordXYN_fields (op : Word) {f n : BitVec 4} (h : (fields op).f = f)
    (hn : (fields op).n = n) : wordXYN f (fields op).x (fields op).y n = op := by
  subst h; subst hn
  apply BitVec.eq_of_toNat_eq
  rw [toNat_wordXYN, fields_f_toNat, fields_x_val, fields_y_val, fields_n_toNat]; omega

/-! ### Masks as fields -/

theorem getLsbD_wordNNN (f : BitVec 4) (nnn : Addr12) (i : Nat) :
    (wordNNN f nnn).getLsbD i = if i < 12 then nnn.getLsbD i else f.getLsbD (i - 12) := by
  unfold wordNNN
  exact (BitVec.getLsbD_append (x := f) (y := nnn)).trans (by split <;> rfl)

theorem getLsbD_wordXNN (f : BitVec 4) (x : Reg) (nn : Byte) (i : Nat) :
    (wordXNN f x nn).getLsbD i = if i < 8 then nn.getLsbD i
      else if i - 8 < 4 then (BitVec.ofFin (w := 4) x).getLsbD (i - 8)
      else f.getLsbD (i - 8 - 4) := by
  unfold wordXNN
  refine (BitVec.getLsbD_append (x := f ++ BitVec.ofFin (w := 4) x) (y := nn)).trans ?_
  rw [BitVec.getLsbD_append]

theorem getLsbD_wordXYN (f : BitVec 4) (x y : Reg) (n : BitVec 4) (i : Nat) :
    (wordXYN f x y n).getLsbD i = if i < 4 then n.getLsbD i
      else if i - 4 < 4 then (BitVec.ofFin (w := 4) y).getLsbD (i - 4)
      else if i - 4 - 4 < 4 then (BitVec.ofFin (w := 4) x).getLsbD (i - 4 - 4)
      else f.getLsbD (i - 4 - 4 - 4) := by
  unfold wordXYN
  refine (BitVec.getLsbD_append (x := f ++ BitVec.ofFin (w := 4) x ++ BitVec.ofFin (w := 4) y)
    (y := n)).trans ?_
  rw [BitVec.getLsbD_append, BitVec.getLsbD_append]

/-- The mask 0xF000 keeps the family. -/
theorem and_F000 (op : Word) : op &&& 0xF000#16 = wordNNN (fields op).f 0 := by
  apply BitVec.eq_of_getLsbD_eq
  intro i hi
  have : i < 16 := hi
  rw [BitVec.getLsbD_and, getLsbD_wordNNN]
  interval_cases i <;> simp [fields]

/-- The mask 0xF00F keeps the family and `N`. -/
theorem and_F00F (op : Word) : op &&& 0xF00F#16 = wordXYN (fields op).f 0 0 (fields op).n := by
  apply BitVec.eq_of_getLsbD_eq
  intro i hi
  have : i < 16 := hi
  rw [BitVec.getLsbD_and, getLsbD_wordXYN]
  interval_cases i <;> simp [fields]

/-- The mask 0xF0FF keeps the family and `NN`. -/
theorem and_F0FF (op : Word) : op &&& 0xF0FF#16 = wordXNN (fields op).f 0 (fields op).nn := by
  apply BitVec.eq_of_getLsbD_eq
  intro i hi
  have : i < 16 := hi
  rw [BitVec.getLsbD_and, getLsbD_wordXNN]
  interval_cases i <;> simp [fields]

/-! ### The decoder, family by family -/

theorem decodeWord_f0 {op : Word} (h : (fields op).f = 0x0#4) :
    decodeWord op = decodeFamily0 op := by simp [decodeWord, h]

theorem decodeWord_f1 {op : Word} (h : (fields op).f = 0x1#4) :
    decodeWord op = .ok (.jp (fields op).nnn) := by simp [decodeWord, h]

theorem decodeWord_f2 {op : Word} (h : (fields op).f = 0x2#4) :
    decodeWord op = .ok (.call (fields op).nnn) := by simp [decodeWord, h]

theorem decodeWord_f3 {op : Word} (h : (fields op).f = 0x3#4) :
    decodeWord op = .ok (.seImm (fields op).x (fields op).nn) := by simp [decodeWord, h]

theorem decodeWord_f4 {op : Word} (h : (fields op).f = 0x4#4) :
    decodeWord op = .ok (.sneImm (fields op).x (fields op).nn) := by simp [decodeWord, h]

theorem decodeWord_f5 {op : Word} (h : (fields op).f = 0x5#4) :
    decodeWord op = .ok (.seReg (fields op).x (fields op).y (fields op).n.toNat) := by simp [decodeWord, h]

theorem decodeWord_f6 {op : Word} (h : (fields op).f = 0x6#4) :
    decodeWord op = .ok (.ldImm (fields op).x (fields op).nn) := by simp [decodeWord, h]

theorem decodeWord_f7 {op : Word} (h : (fields op).f = 0x7#4) :
    decodeWord op = .ok (.addImm (fields op).x (fields op).nn) := by simp [decodeWord, h]

theorem decodeWord_f8 {op : Word} (h : (fields op).f = 0x8#4) :
    decodeWord op = decodeFamily8 (fields op) := by simp [decodeWord, h]

theorem decodeWord_f9 {op : Word} (h : (fields op).f = 0x9#4) :
    decodeWord op = .ok (.sneReg (fields op).x (fields op).y (fields op).n.toNat) := by simp [decodeWord, h]

theorem decodeWord_f10 {op : Word} (h : (fields op).f = 0xa#4) :
    decodeWord op = .ok (.ldI (fields op).nnn) := by simp [decodeWord, h]

theorem decodeWord_f11 {op : Word} (h : (fields op).f = 0xb#4) :
    decodeWord op = .ok (.jpV0 (fields op).nnn) := by simp [decodeWord, h]

theorem decodeWord_f12 {op : Word} (h : (fields op).f = 0xc#4) :
    decodeWord op = .ok (.rnd (fields op).x (fields op).nn) := by simp [decodeWord, h]

theorem decodeWord_f13 {op : Word} (h : (fields op).f = 0xd#4) :
    decodeWord op = .ok (.drw (fields op).x (fields op).y (fields op).n.toNat) := by simp [decodeWord, h]

theorem decodeWord_f14 {op : Word} (h : (fields op).f = 0xe#4) :
    decodeWord op = decodeFamilyE (fields op) := by simp [decodeWord, h]

theorem decodeWord_f15 {op : Word} (h : (fields op).f = 0xf#4) :
    decodeWord op = decodeFamilyF (fields op) := by simp [decodeWord, h]

theorem family_cases (f : BitVec 4) : f = 0x0#4 ∨ f = 0x1#4 ∨ f = 0x2#4 ∨ f = 0x3#4 ∨ f = 0x4#4 ∨ f = 0x5#4 ∨ f = 0x6#4 ∨ f = 0x7#4 ∨
    f = 0x8#4 ∨ f = 0x9#4 ∨ f = 0xa#4 ∨ f = 0xb#4 ∨ f = 0xc#4 ∨ f = 0xd#4 ∨ f = 0xe#4 ∨ f = 0xf#4 := by
  revert f; decide

end Sys2Proof
end

