-- ==== Sys2Proof/Laws/PerInstr.lean ====
section
/-! SUPPORT. Statements made per instruction. `EncodesItsRow`: the instruction's word is selected by its
row of the opcode table (R84). -/

namespace Sys2Proof.Laws.EncodesItsRow

/-- The encoded word has the row's value under the row's mask. -/
def Statement (i : Instr) : Prop := encode i &&& (rowOf i).mask = (rowOf i).val

theorem ofNNN (f : BitVec 4) (nnn : Addr12) : wordNNN f nnn &&& 0xF000#16 = wordNNN f 0 := by
  rw [and_F000, fields_wordNNN_f]

theorem ofXNN (f : BitVec 4) (x : Reg) (nn : Byte) :
    wordXNN f x nn &&& 0xF000#16 = wordNNN f 0 := by
  rw [and_F000, fields_wordXNN_f]

theorem ofXYN (f : BitVec 4) (x y : Reg) (n : BitVec 4) :
    wordXYN f x y n &&& 0xF000#16 = wordNNN f 0 := by
  rw [and_F000, fields_wordXYN_f]

theorem ofXY (f : BitVec 4) (x y : Reg) (n : BitVec 4) :
    wordXYN f x y n &&& 0xF00F#16 = wordXYN f 0 0 n := by
  rw [and_F00F, fields_wordXYN_f, fields_wordXYN_n]

theorem ofX (f : BitVec 4) (x : Reg) (nn : Byte) :
    wordXNN f x nn &&& 0xF0FF#16 = wordXNN f 0 nn := by
  rw [and_F0FF, fields_wordXNN_f, fields_wordXNN_nn]

theorem cls : Statement (.cls) := rfl
theorem ret : Statement (.ret) := rfl
theorem jp (nnn : Addr12) : Statement (.jp nnn) :=
  (ofNNN _ _).trans rfl
theorem call (nnn : Addr12) : Statement (.call nnn) :=
  (ofNNN _ _).trans rfl
theorem seImm (x : Reg) (nn : Byte) : Statement (.seImm x nn) :=
  (ofXNN _ _ _).trans rfl
theorem sneImm (x : Reg) (nn : Byte) : Statement (.sneImm x nn) :=
  (ofXNN _ _ _).trans rfl
theorem seReg (x y : Reg) (n : Nat) : Statement (.seReg x y n) :=
  (ofXYN _ _ _ _).trans rfl
theorem ldImm (x : Reg) (nn : Byte) : Statement (.ldImm x nn) :=
  (ofXNN _ _ _).trans rfl
theorem addImm (x : Reg) (nn : Byte) : Statement (.addImm x nn) :=
  (ofXNN _ _ _).trans rfl
theorem ldReg (x y : Reg) : Statement (.ldReg x y) :=
  (ofXY _ _ _ _).trans rfl
theorem orReg (x y : Reg) : Statement (.orReg x y) :=
  (ofXY _ _ _ _).trans rfl
theorem andReg (x y : Reg) : Statement (.andReg x y) :=
  (ofXY _ _ _ _).trans rfl
theorem xorReg (x y : Reg) : Statement (.xorReg x y) :=
  (ofXY _ _ _ _).trans rfl
theorem addReg (x y : Reg) : Statement (.addReg x y) :=
  (ofXY _ _ _ _).trans rfl
theorem sub (x y : Reg) : Statement (.sub x y) :=
  (ofXY _ _ _ _).trans rfl
theorem shr (x y : Reg) : Statement (.shr x y) :=
  (ofXY _ _ _ _).trans rfl
theorem subn (x y : Reg) : Statement (.subn x y) :=
  (ofXY _ _ _ _).trans rfl
theorem shl (x y : Reg) : Statement (.shl x y) :=
  (ofXY _ _ _ _).trans rfl
theorem sneReg (x y : Reg) (n : Nat) : Statement (.sneReg x y n) :=
  (ofXYN _ _ _ _).trans rfl
theorem ldI (nnn : Addr12) : Statement (.ldI nnn) :=
  (ofNNN _ _).trans rfl
theorem jpV0 (nnn : Addr12) : Statement (.jpV0 nnn) :=
  (ofNNN _ _).trans rfl
theorem rnd (x : Reg) (nn : Byte) : Statement (.rnd x nn) :=
  (ofXNN _ _ _).trans rfl
theorem drw (x y : Reg) (n : Nat) : Statement (.drw x y n) :=
  (ofXYN _ _ _ _).trans rfl
theorem skp (x : Reg) : Statement (.skp x) :=
  (ofX _ _ _).trans rfl
theorem sknp (x : Reg) : Statement (.sknp x) :=
  (ofX _ _ _).trans rfl
theorem ldVxDt (x : Reg) : Statement (.ldVxDt x) :=
  (ofX _ _ _).trans rfl
theorem ldVxK (x : Reg) : Statement (.ldVxK x) :=
  (ofX _ _ _).trans rfl
theorem ldDt (x : Reg) : Statement (.ldDt x) :=
  (ofX _ _ _).trans rfl
theorem ldSt (x : Reg) : Statement (.ldSt x) :=
  (ofX _ _ _).trans rfl
theorem addI (x : Reg) : Statement (.addI x) :=
  (ofX _ _ _).trans rfl
theorem ldF (x : Reg) : Statement (.ldF x) :=
  (ofX _ _ _).trans rfl
theorem ldB (x : Reg) : Statement (.ldB x) :=
  (ofX _ _ _).trans rfl
theorem storeRegs (x : Reg) : Statement (.storeRegs x) :=
  (ofX _ _ _).trans rfl
theorem loadRegs (x : Reg) : Statement (.loadRegs x) :=
  (ofX _ _ _).trans rfl

end Sys2Proof.Laws.EncodesItsRow
end

