-- ==== Sys2Proof/Tests/Slice0.lean ====
section
/-! SUPPORT. Tests by evaluation. Expected results are the vectors of 95_test_vectors.md, named in each
comment by their id there, or worked out by hand from the rule named. The last part shows, for every
obligation with hypotheses, a concrete state and operands that meet them. -/

namespace Sys2Proof.Tests

open Sys2Proof.Machine

/-! ### Building a small state and running one step -/

/-- The reset state with two keypad samples of 0 to come; `withFetchWord` makes it running (R204). -/
def ready : State := { State.reset with env := { Env.reset with keypad := [0, 0] } }

/-- With these values in registers. -/
def withRegs (l : List (Reg × Byte)) (s : State) : State := l.foldl (fun s p => s.setReg p.1 p.2) s

/-- With these bytes at 0x300 upward and `I` = 0x300. -/
def withBytes (l : List Byte) (s : State) : State := (s.storeFrom 0x300 0 l).setI 0x300

/-- With these keypad samples to come. -/
def withKeys (l : List Word) (s : State) : State := { s with env := { s.env with keypad := l } }

/-- With `n` frames, all holding the address `a`. -/
def withFrames (n : Fin 17) (a : Word) (s : State) : State :=
  { s with sp := n, stack := Vector.replicate 16 a }

/-- With the next turn given. -/
def withTurn (t : Turn) (s : State) : State := { s with env := { s.env with turns := [t] } }

/-- What is seen after a step from the state. -/
def seen {α : Type} (s : State) (f : State → α) : Option α :=
  match step s with
  | .next t => some (f t)
  | .fault _ => none
  | .refused _ => none

/-- What is seen after one iteration with the word at `pc`. -/
def after {α : Type} (w : Nat) (s : State) (f : State → α) : Option α := seen (s.withFetchWord 16 w) f

/-! ### Well-formedness refuses an ill-formed term of each form it checks -/

theorem test_wellFormed_refuses_seReg : (Instr.seReg 1 2 16).wellFormed = false := by decide
theorem test_wellFormed_refuses_sneReg : (Instr.sneReg 1 2 16).wellFormed = false := by decide
theorem test_wellFormed_refuses_drw : (Instr.drw 1 2 16).wellFormed = false := by decide
theorem test_canonical_refuses_ignored_fields :
    [Instr.seReg 1 2 3, .sneReg 1 2 3, .shr 1 2, .shl 1 2].map Instr.canonical =
      [false, false, false, false] := by decide

/-! ### Decoding: every constructor, from a word written out by the encodings of R76 to R80 -/

-- R76 (F = 0000): 0000 0000 1110 0000 and 0000 0000 1110 1110; X3 to X6, R83.
theorem test_decode_family0 :
    decodeWord 0b0000000011100000 = .ok .cls ∧ decodeWord 0b0000000011101110 = .ok .ret ∧
    decodeWord 0x0000 = .error .invalidFamily0 ∧ decodeWord 0x00E1 = .error .invalidFamily0 ∧
    decodeWord 0x0123 = .error .invalidFamily0 ∧ decodeWord 0x01E0 = .error .invalidFamily0 := by decide

-- R77 (F = 1, 2, A, B, then twelve address bits): X7, X25.
theorem test_decode_addresses :
    decodeWord 0b0001000011100000 = .ok (.jp 0x0E0) ∧
    decodeWord 0b0010001000000110 = .ok (.call 0x206) ∧
    decodeWord 0b1010001100000000 = .ok (.ldI 0x300) ∧
    decodeWord 0b1011111111111111 = .ok (.jpV0 0xFFF) := by decide

-- R77 (F = 3, 4, 6, 7, C, then X, then eight bits): B10, B12, X8, A3, K1.
theorem test_decode_bytes :
    decodeWord 0b0011000100000001 = .ok (.seImm 1 0x01) ∧
    decodeWord 0b0100000111111111 = .ok (.sneImm 1 0xFF) ∧
    decodeWord 0b0110101001111111 = .ok (.ldImm 0xA 0x7F) ∧
    decodeWord 0b0111000100000010 = .ok (.addImm 1 0x02) ∧
    decodeWord 0b1100000100001111 = .ok (.rnd 1 0x0F) := by decide

-- R77 (F = 5, 9, D, then X, Y, N): X13, X14, X24.
theorem test_decode_nibbles :
    decodeWord 0b0101000100100001 = .ok (.seReg 1 2 1) ∧
    decodeWord 0b1001101010111111 = .ok (.sneReg 0xA 0xB 0xF) ∧
    decodeWord 0b1101000000010010 = .ok (.drw 0 1 2) := by decide

-- R78 (F = 8, then X = A, Y = B, then the function code): X9 to X12.
theorem test_decode_family8 :
    decodeWord 0b1000101010110000 = .ok (.ldReg 0xA 0xB) ∧
    decodeWord 0b1000101010110001 = .ok (.orReg 0xA 0xB) ∧
    decodeWord 0b1000101010110010 = .ok (.andReg 0xA 0xB) ∧
    decodeWord 0b1000101010110011 = .ok (.xorReg 0xA 0xB) ∧
    decodeWord 0b1000101010110100 = .ok (.addReg 0xA 0xB) ∧
    decodeWord 0b1000101010110101 = .ok (.sub 0xA 0xB) ∧
    decodeWord 0b1000101010110110 = .ok (.shr 0xA 0xB) ∧
    decodeWord 0b1000101010110111 = .ok (.subn 0xA 0xB) ∧
    decodeWord 0b1000101010111110 = .ok (.shl 0xA 0xB) ∧
    decodeWord 0x8128 = .error .invalidFamily8 ∧ decodeWord 0x812D = .error .invalidFamily8 ∧
    decodeWord 0x812F = .error .invalidFamily8 := by decide

-- R79 (F = E): X15 to X18.
theorem test_decode_familyE :
    decodeWord 0b1110000110011110 = .ok (.skp 1) ∧ decodeWord 0b1110000010100001 = .ok (.sknp 0) ∧
    decodeWord 0xE19F = .error .invalidFamilyE ∧ decodeWord 0xE000 = .error .invalidFamilyE := by decide

-- R80 (F = F): X19 to X23.
theorem test_decode_familyF :
    decodeWord 0b1111000100000111 = .ok (.ldVxDt 1) ∧ decodeWord 0b1111010100001010 = .ok (.ldVxK 5) ∧
    decodeWord 0b1111000000010101 = .ok (.ldDt 0) ∧ decodeWord 0b1111010000011000 = .ok (.ldSt 4) ∧
    decodeWord 0b1111001000011110 = .ok (.addI 2) ∧ decodeWord 0b1111001100101001 = .ok (.ldF 3) ∧
    decodeWord 0b1111000000110011 = .ok (.ldB 0) ∧ decodeWord 0b1111000101010101 = .ok (.storeRegs 1) ∧
    decodeWord 0b1111111101100101 = .ok (.loadRegs 0xF) ∧
    decodeWord 0xF10B = .error .invalidFamilyF ∧ decodeWord 0xF000 = .error .invalidFamilyF ∧
    decodeWord 0xF1FF = .error .invalidFamilyF := by decide

-- R70, R71: the first byte in memory is the high one; a lone byte is no instruction.
theorem test_decode_bytes_in_memory_order :
    decodeBytes [0x12, 0x04, 0xAA] = .ok (.jp 0x204, [0xAA]) ∧
    decodeBytes [0x12] = .error .truncated := by decide

theorem test_decodeTableWord :
    decodeTableWord 16 0x8AB4 = some (.addReg 0xA 0xB) ∧ decodeTableWord 16 0x0123 = none := by decide

/-! ### Control flow -/

-- B1.
theorem test_jp : after 0x1204 { ready with pc := 0x204 } (fun t => t.pc) = some 0x204 := by decide
-- B4.
theorem test_call_sixteenth :
    after 0x2300 { withFrames 15 0 ready with pc := 0x250 } (fun t => (t.stack[15], t.sp, t.pc)) =
      some (0x250, 16, 0x300) := by decide
-- B5.
theorem test_call_overflow :
    after 0x2300 (withFrames 16 0x0ABC ready)
      (fun t => (t.run, t.fault, t.faultInfo, t.pc, t.sp, t.stack[15])) =
      some (.halted, .stackOverflow, 0x2300, 0x200, 16, 0x0ABC) := by decide
-- B8.
theorem test_ret_full :
    after 0x00EE (withFrames 16 0x0ABC ready) (fun t => (t.sp, t.pc)) = some (15, 0x0ABE) := by decide
-- B7.
theorem test_ret_underflow :
    after 0x00EE ready (fun t => (t.run, t.fault, t.faultInfo, t.pc, t.sp)) =
      some (.halted, .stackUnderflow, 0x00EE, 0x200, 0) := by decide
-- B21, B10.
theorem test_seImm :
    after 0x3F01 (withRegs [(15, 1)] ready) (fun t => t.pc) = some 0x204 ∧
    after 0x3101 { ready with pc := 0x208 } (fun t => t.pc) = some 0x20A := by decide
-- B22.
theorem test_seImm_wraps : after 0x3100 { ready with pc := 0xFFFE } (fun t => t.pc) = some 2 := by decide
-- B11, B12.
theorem test_sneImm :
    after 0x4100 { ready with pc := 0x208 } (fun t => t.pc) = some 0x20A ∧
    after 0x41FF { ready with pc := 0x208 } (fun t => t.pc) = some 0x20C := by decide
-- B14, B16.
theorem test_seReg :
    after 0x5230 { withRegs [(2, 7), (3, 8)] ready with pc := 0x300 } (fun t => t.pc) = some 0x302 ∧
    after 0x523C (withRegs [(2, 7), (3, 7)] ready) (fun t => t.pc) = some 0x204 := by decide
-- B17, B18.
theorem test_sneReg :
    after 0x9230 { withRegs [(2, 7), (3, 7)] ready with pc := 0x300 } (fun t => t.pc) = some 0x302 ∧
    after 0x9230 { withRegs [(2, 7), (3, 8)] ready with pc := 0x300 } (fun t => t.pc) =
      some 0x304 := by decide
-- B20.
theorem test_jpV0 : after 0xBFFF (withRegs [(0, 0xFF)] ready) (fun t => t.pc) = some 0x10FE := by decide

/-! ### Load, arithmetic, logic -/

-- A1.
theorem test_ldImm : after 0x6A7F ready (fun t => (t.reg 10, t.pc)) = some (0x7F, 0x202) := by decide
-- B23.
theorem test_ldImm_pc_wraps : after 0x6000 { ready with pc := 0xFFFE } (fun t => t.pc) = some 0 := by decide
-- A3.
theorem test_addImm :
    after 0x7102 (withRegs [(1, 0xFF)] ready) (fun t => (t.reg 1, t.reg 15)) = some (0x01, 0) := by decide
-- A5.
theorem test_ldReg :
    after 0x8120 (withRegs [(2, 0x3C)] ready) (fun t => (t.reg 1, t.reg 2)) = some (0x3C, 0x3C) := by decide
-- A6.
theorem test_orReg :
    after 0x8121 (withRegs [(1, 0x0F), (2, 0xF0), (15, 1)] ready) (fun t => (t.reg 1, t.reg 15)) =
      some (0xFF, 1) := by decide
-- A7.
theorem test_andReg :
    after 0x8122 (withRegs [(1, 0x3C), (2, 0x0F)] ready) (fun t => t.reg 1) = some 0x0C := by decide
-- A8.
theorem test_xorReg :
    after 0x8123 (withRegs [(1, 0x3C), (2, 0x0F)] ready) (fun t => t.reg 1) = some 0x33 := by decide
-- A10, A13.
theorem test_addReg :
    after 0x8124 (withRegs [(1, 0xC8), (2, 0x64)] ready) (fun t => (t.reg 1, t.reg 15)) =
      some (0x2C, 1) ∧
    after 0x81F4 (withRegs [(1, 0x10), (15, 0x01)] ready) (fun t => (t.reg 1, t.reg 15)) =
      some (0x11, 0) := by decide
-- A21, A23 to A26.
theorem test_flag_last :
    after 0x8F14 (withRegs [(15, 0x02), (1, 0x03)] ready) (fun t => t.reg 15) = some 0 ∧
    after 0x8F15 (withRegs [(15, 0x05), (1, 0x07)] ready) (fun t => t.reg 15) = some 0 ∧
    after 0x8F17 (withRegs [(15, 0x05), (1, 0x07)] ready) (fun t => t.reg 15) = some 1 ∧
    after 0x8F06 (withRegs [(15, 0x02)] ready) (fun t => t.reg 15) = some 0 ∧
    after 0x8F0E (withRegs [(15, 0x81)] ready) (fun t => t.reg 15) = some 1 := by decide
-- A14, A16.
theorem test_sub :
    after 0x8125 (withRegs [(1, 0x07), (2, 0x05)] ready) (fun t => (t.reg 1, t.reg 15)) =
      some (0x02, 1) ∧
    after 0x8125 (withRegs [(2, 0xFF)] ready) (fun t => (t.reg 1, t.reg 15)) = some (0x01, 0) := by decide
-- A17.
theorem test_subn :
    after 0x8127 (withRegs [(1, 0x07), (2, 0x05)] ready) (fun t => (t.reg 1, t.reg 15, t.reg 2)) =
      some (0xFE, 0, 0x05) := by decide
-- A18, E3.
theorem test_shr :
    after 0x8126 (withRegs [(1, 0x01), (2, 0xFE)] ready) (fun t => (t.reg 1, t.reg 15, t.reg 2)) =
      some (0x00, 1, 0xFE) ∧
    after 0x8106 (withRegs [(1, 0x05)] ready) (fun t => (t.reg 1, t.reg 15)) = some (0x02, 1) := by decide
-- A19, E3.
theorem test_shl :
    after 0x812E (withRegs [(1, 0xFF)] ready) (fun t => (t.reg 1, t.reg 15)) = some (0xFE, 1) ∧
    after 0x810E (withRegs [(1, 0x40)] ready) (fun t => (t.reg 1, t.reg 15)) = some (0x80, 0) := by decide

/-! ### Index pointer and memory -/

-- M1.
theorem test_ldI : after 0xAFFF ready (fun t => (t.i, t.pc)) = some (0x0FFF, 0x202) := by decide
-- M3, M4.
theorem test_addI :
    after 0xF21E { withRegs [(2, 0x01)] ready with i := 0x0FFF } (fun t => (t.i, t.reg 15)) =
      some (0x1000, 0) ∧
    after 0xF21E { withRegs [(2, 0x02)] ready with i := 0xFFFF } (fun t => t.i) = some 0x0001 := by decide
-- M5, M7.
theorem test_ldF :
    after 0xF329 (withRegs [(3, 0x0A)] ready) (fun t => t.i) = some 0x0032 ∧
    after 0xF329 (withRegs [(3, 0xFF)] ready) (fun t => t.i) = some 0x04FB := by decide
-- M8.
theorem test_ldB :
    after 0xF033 { withRegs [(0, 0xEA)] ready with i := 0x300 }
      (fun t => (t.byteAt 0x300, t.byteAt 0x301, t.byteAt 0x302, t.i)) =
      some (0x02, 0x03, 0x04, 0x300) := by decide
-- M11.
theorem test_ldB_wraps :
    after 0xF033 { withRegs [(0, 0x7B)] ready with i := 0x0FFE }
      (fun t => (t.byteAt 0xFFE, t.byteAt 0xFFF, t.byteAt 0x000)) = some (0x01, 0x02, 0x03) := by decide
-- M12: the byte after the range keeps what was there.
theorem test_storeRegs :
    after 0xF155 (({ withRegs [(0, 0x11), (1, 0x22), (2, 0x33)] ready with i := 0x400 } : State).memWrite
      0x402 0 0x5A) (fun t => (t.byteAt 0x400, t.byteAt 0x401, t.byteAt 0x402, t.i)) =
      some (0x11, 0x22, 0x5A, 0x400) := by decide
-- M15.
theorem test_storeRegs_wraps :
    after 0xF155 { withRegs [(0, 0xAA), (1, 0xBB)] ready with i := 0x0FFF }
      (fun t => (t.byteAt 0xFFF, t.byteAt 0x000)) = some (0xAA, 0xBB) := by decide
-- M16.
theorem test_loadRegs :
    after 0xF265 (withBytes [2, 3, 4] (withRegs [(3, 0x77)] ready))
      (fun t => (t.reg 0, t.reg 1, t.reg 2, t.reg 3, t.i)) = some (2, 3, 4, 0x77, 0x300) := by decide
-- M17.
theorem test_loadRegs_font :
    after 0xF065 { ready with i := 0x1000 } (fun t => t.reg 0) = some 0xF0 := by decide

/-! ### Graphics -/

-- E4, G1: one push of the clear buffer, the draw flag clear afterwards.
theorem test_cls :
    after 0x00E0 { ready with gfx := gfxToggle (gfxToggle gfxClear 5) 2047 }
      (fun t => (gfxCell t.gfx 5, gfxCell t.gfx 2047, t.df, decide (t.env.pushes = [gfxClear]))) =
      some (false, false, false, true) := by decide
-- G7: across both edges.
theorem test_drw_wraps :
    after 0xD012 (withBytes [0xC0, 0x80] (withRegs [(0, 0x3F), (1, 0x1F)] ready))
      (fun t => (t.reg 15, [2047, 1984, 63, 62, 0].map (gfxCell t.gfx))) =
      some (0, [true, true, true, false, false]) := by decide
-- G3: a collision. G9: the old VF is the column.
theorem test_drw_flag :
    after 0xD011 (withBytes [0x80] { ready with gfx := gfxToggle gfxClear 0 })
      (fun t => (gfxCell t.gfx 0, t.reg 15)) = some (false, 1) ∧
    after 0xDF11 (withBytes [0x80] (withRegs [(15, 0x05)] ready))
      (fun t => (gfxCell t.gfx 5, t.reg 15)) = some (true, 0) := by decide

/-! ### Keypad, timers, random -/

-- K1.
theorem test_rnd :
    after 0xC10F { ready with env := { ready.env with rng := [0xA7, 0x11] } }
      (fun t => (t.reg 1, t.env.rng)) = some (0x07, [0x11]) := by decide
-- K4, K5.
theorem test_skp :
    after 0xE19E { withKeys [0x0420] (withRegs [(1, 0x05)] ready) with pc := 0x210 } (fun t => t.pc) =
      some 0x214 ∧
    after 0xE19E { withKeys [0x0420] (withRegs [(1, 0x04)] ready) with pc := 0x210 } (fun t => t.pc) =
      some 0x212 := by decide
-- K7.
theorem test_skp_high_index :
    after 0xE19E (withKeys [0x0420] (withRegs [(1, 0x15)] ready)) (fun t => t.pc) = some 0x202 := by decide
-- K8, K10.
theorem test_sknp :
    after 0xE1A1 { withKeys [0x0420] (withRegs [(1, 0x05)] ready) with pc := 0x210 } (fun t => t.pc) =
      some 0x212 ∧
    after 0xE1A1 (withKeys [0xFFFF] (withRegs [(1, 0x10)] ready)) (fun t => t.pc) = some 0x204 := by decide
-- K11.
theorem test_ldVxDt :
    after 0xF207 { ready with dt := 0x3C } (fun t => (t.reg 2, t.dt)) = some (0x3C, 0x3C) := by decide
-- K13.
theorem test_ldVxK :
    after 0xF50A { withKeys [0, 0x0108] ready with pc := 0x220 } (fun t => (t.kp, t.reg 5, t.pc)) =
      some (0x0108, 0x03, 0x222) := by decide
-- K15.
theorem test_ldVxK_fresh_sample :
    after 0xF50A (withKeys [0x0001, 0x0000] ready) (fun t => (t.kp, t.reg 5, t.pc)) =
      some (0, 0, 0x200) := by decide
-- K16.
theorem test_ldDt :
    after 0xF015 { withRegs [(0, 0x3C)] ready with dt := 0x07 } (fun t => t.dt) = some 0x3C := by decide
-- K18.
theorem test_ldSt :
    after 0xF418 { withRegs [(4, 0x05)] ready with dt := 0x07 } (fun t => (t.st, t.dt)) =
      some (0x05, 0x07) := by decide

/-! ### Run loop, faults, reset -/

-- K20, K21.
theorem test_tick :
    seen (withTurn .tick { ready with dt := 0xFF, st := 0x02 }) (fun t => (t.dt, t.st)) =
      some (0xFE, 0x01) ∧
    seen (withTurn .tick { ready with run := .halted, dt := 0x09 }) (fun t => (t.dt, t.st, t.run)) =
      some (0x08, 0x00, .halted) := by decide
-- S2.
theorem test_invalid_word :
    after 0xF1FF (withRegs [(1, 9)] ready)
      (fun t => (t.run, t.fault, t.faultInfo, t.pc, t.reg 1, t.env.pushes.length)) =
      some (.halted, .invalidOpcode, 0xF1FF, 0x200, 9, 0) := by decide
-- S3.
theorem test_halted_core_step :
    step (withTurn .core { ready with run := .halted }) = .fault .coreHalted := rfl
-- S4, S5, S6.
theorem test_awaiting :
    seen (withTurn .core (withKeys [0x0400] ready)) (fun t => (t.kp, t.run)) =
      some (0x0400, .awaitingTrigger) ∧
    seen (withTurn .core { withKeys [0xFBFF] ready with loaded := true }) (fun t => (t.kp, t.run)) =
      some (0xFBFF, .awaitingTrigger) ∧
    seen (withTurn .core { withKeys [0xFFFF] ready with loaded := true }) (fun t => (t.run, t.pc)) =
      some (.running, 0x200) := by decide
-- S9, S10.
theorem test_fetch_wraps_and_needs_no_alignment :
    after 0x1200 { ready with pc := 0x0FFF } (fun t => (t.byteAt 0x000, t.pc)) = some (0x00, 0x200) ∧
    after 0x6A7F { ready with pc := 0x0201 } (fun t => (t.reg 10, t.pc)) = some (0x7F, 0x203) := by decide
-- E7: a fitting image is loaded.
theorem test_load :
    seen (withTurn (.load [0x60, 0x05, 0x70, 0x03]) ready)
      (fun t => (t.byteAt 0x200, t.byteAt 0x203, t.loaded)) = some (0x60, 0x03, true) := by decide
-- E7: an image over the capacity is not.
theorem test_load_overlong : ready.load (List.replicate 1025 0x60) = ready :=
  if_neg (by rw [List.length_replicate]; decide)
/-- A halted state with registers, stack, timer and fault away from their reset values. -/
def spent : State :=
  { withRegs [(3, 7)] (withFrames 16 9 ready) with
    run := .halted, fault := .stackOverflow, faultInfo := 0x2300, pc := 0x250, dt := 3 }

-- S8.
theorem test_reset :
    seen (withTurn .reset spent) (fun t => (t.reg 3, t.sp, t.stack[15], t.pc, t.dt)) =
      some (0, 0, 0, 0x200, 0) ∧
    seen (withTurn .reset spent) (fun t => (t.run, t.fault, t.faultInfo, t.byteAt 0x04F)) =
      some (.awaitingTrigger, .none, 0, 0x80) := by decide

/-! ### Witnesses: the hypotheses of each obligation are met -/

/-- The state about to run `LD VA, 0x7F`. -/
def aboutToLoad : State := ready.withFetchWord 16 0x6A7F

theorem witness_DecodeGivesBackEveryEncodedInstruction :
    (Instr.drw 15 15 15).wellFormed = true ∧ (Instr.seReg 0 0 0).wellFormed = true := by decide

theorem witness_EncodeGivesBackEveryDecodedWord : decodeWord 0xDFFF = .ok (.drw 15 15 15) := by decide

theorem witness_TableRowsAgreeWithTheDecoder :
    ((rowOf (.shl 0 0)).selects 0x8ABE = true ∧ (rowOf (.shl 10 11)).selects 0x8ABE = true) ∧
    decodeWord 0x8ABE = .ok (.shl 10 11) := by decide

theorem witness_StepRunsTheDecodedInstruction :
    aboutToLoad.env.turn = .core ∧ aboutToLoad.run = .running ∧
    decodeWord (aboutToLoad.byteAt (aboutToLoad.pc.toNat % 4096) ++
      aboutToLoad.byteAt ((aboutToLoad.pc.toNat + 1) % 4096)) = .ok (.ldImm 10 0x7F) := by decide

theorem witness_EndOfIterationPushesOnce :
    (({ aboutToLoad with df := true } : State).run = .running ∧
      ({ aboutToLoad with df := true } : State).df = true) ∧
    (aboutToLoad.run = .running ∧ aboutToLoad.df = false) ∧
    ({ ready with run := .halted } : State).run = .halted := by decide

theorem witness_InvalidWordHaltsTheCore :
    (ready.withFetchWord 16 0x0000).env.turn = .core ∧ (ready.withFetchWord 16 0x0000).run = .running ∧
    decodeWord (ready.withFetchWord 16 0x0000).fetch = .error .invalidFamily0 := by decide

/-- Each of the three ways to halt, and a step that does not. -/
theorem witness_CoreHaltsOnlyByItsThreeFaults :
    after 0x0000 ready (fun t => (t.run, t.fault)) = some (.halted, .invalidOpcode) ∧
    after 0x2300 (withFrames 16 0 ready) (fun t => (t.run, t.fault)) = some (.halted, .stackOverflow) ∧
    after 0x2300 (withFrames 15 0 ready) (fun t => (t.run, t.fault)) = some (.running, .none) ∧
    after 0x00EE ready (fun t => (t.run, t.fault)) = some (.halted, .stackUnderflow) ∧
    after 0x00EE (withFrames 1 0 ready) (fun t => (t.run, t.fault)) = some (.running, .none) := by decide

/-- A step that changes nothing of `RUN`, and one for each transition. -/
theorem witness_RunLoopHasExactlyThreeTransitions :
    seen aboutToLoad (fun t => t.run) = some .running ∧
    seen (withTurn .reset { ready with run := .halted }) (fun t => t.run) = some .awaitingTrigger ∧
    seen (withTurn .core { withKeys [0x0400] ready with loaded := true }) (fun t => t.run) =
      some .running ∧
    after 0x0000 ready (fun t => t.run) = some .halted := by decide

theorem witness_AwaitingStepWaitsForLoadedAndKeyA :
    (withTurn .core (withKeys [0x0400] ready)).env.turn = .core ∧
    (withTurn .core (withKeys [0x0400] ready)).run = .awaitingTrigger := by decide

theorem witness_HaltedCoreTakesNoStep :
    (withTurn .core { ready with run := .halted }).env.turn = .core ∧
    (withTurn .core { ready with run := .halted }).run = .halted := by decide

theorem witness_OnlyResetLeavesHalted :
    (withTurn .tick { ready with run := .halted }).run = .halted ∧
    (withTurn .tick { ready with run := .halted }).env.turn ≠ .reset ∧
    seen (withTurn .tick { ready with run := .halted, dt := 1 }) (fun t => t.dt) = some 0 ∧
    seen (withTurn (.load [0x60]) { ready with run := .halted, dt := 1 }) (fun t => t.dt) =
      some 1 := by decide

theorem witness_TickCountsBothTimersDown : (withTurn .tick ready).env.turn = .tick := by decide

theorem witness_NTicksLeaveTheFlooredDifference :
    ({ ready with env := { ready.env with turns := [.tick, .tick, .core] } } : State).env.turns =
      List.replicate 2 .tick ++ [.core] := by decide

theorem witness_TickCommutesWithUntimedInstructions :
    (∀ x, Instr.cls ≠ .ldVxDt x ∧ Instr.cls ≠ .ldDt x ∧ Instr.cls ≠ .ldSt x) ∧
    ∃ t, exec .cls ready = .next t := ⟨fun _ => ⟨nofun, nofun, nofun⟩, _, rfl⟩

/-- Both clauses: a clear and a load. -/
theorem witness_OnePushPerClearOrDraw :
    (decodeWord (ready.withFetchWord 16 0x00E0).fetch = .ok .cls ∧
      (ready.withFetchWord 16 0x00E0).df = false ∧
      after 0x00E0 ready (fun t => t.env.pushes.length) = some 1) ∧
    (decodeWord aboutToLoad.fetch = .ok (.ldImm 10 0x7F) ∧
      seen aboutToLoad (fun t => t.env.pushes.length) = some 0) := by decide

/-- The largest image that fits. -/
theorem witness_LoadedImageStandsAtProgramBase :
    (withTurn (.load (List.replicate 1024 0x60)) ready).env.turn = .load (List.replicate 1024 0x60) ∧
    (withTurn (.load (List.replicate 1024 0x60)) ready).run = .awaitingTrigger ∧
    (withTurn (.load (List.replicate 1024 0x60)) ready).loaded = false ∧
    (List.replicate 1024 (0x60 : Byte)).length ≤ 1024 :=
  ⟨rfl, rfl, rfl, by rw [List.length_replicate]⟩

/-- The smallest image that does not. -/
theorem witness_OverlongImageIsNotLoaded :
    (withTurn (.load (List.replicate 1025 0x60)) ready).env.turn = .load (List.replicate 1025 0x60) ∧
    1024 < (List.replicate 1025 (0x60 : Byte)).length :=
  ⟨rfl, by rw [List.length_replicate]; decide⟩

theorem witness_ResetFromAnyState : (withTurn .reset ready).env.turn = .reset := by decide

/-- A running state that meets the invariant, and its step answers. -/
theorem witness_EveryStepKeepsTheReachableInvariant_running :
    Inv aboutToLoad ∧ ∃ t, step aboutToLoad = .next t :=
  ⟨⟨by decide, by decide, by decide, by decide, by decide, trivial, by decide,
    fun h => absurd h (by decide)⟩, _, rfl⟩

/-- A halted state that meets the invariant (a return on an empty stack), and a tick in it. -/
def haltedOnReturn : State :=
  withTurn .tick { ready.withFetchWord 16 0x00EE with
    run := .halted, fault := .stackUnderflow, faultInfo := 0x00EE }

theorem witness_EveryStepKeepsTheReachableInvariant_halted :
    Inv haltedOnReturn ∧ ∃ t, step haltedOnReturn = .next t :=
  ⟨⟨by decide, by decide, by decide, by decide, by decide, ⟨by decide, by decide⟩, by decide,
    fun h => absurd h (by decide)⟩, _, rfl⟩

theorem witness_FetchIsBigEndianAndWraps :
    (0x1200 : Word).toNat % 4096 = ready.pc.toNat % 4096 := by decide

theorem witness_StoreOverNextInstructionIsFetched :
    ({ ready with i := 0x202 } : State).i = ready.pc + 2 ∧ 1 ≤ (1 : Reg).val ∧
    ∃ t, exec (.storeRegs 1) { ready with i := 0x202 } = .next t := ⟨by decide, by decide, _, rfl⟩

/-- Below and at capacity. -/
theorem witness_CallPushesItsOwnAddressOrOverflows :
    (withFrames 15 0 ready).sp.val < 16 ∧ (withFrames 16 0 ready).sp.val = 16 := by decide

/-- Full, one frame, none. -/
theorem witness_ReturnPopsOrUnderflows :
    (withFrames 16 0 ready).sp.val = 15 + 1 ∧ (withFrames 1 0 ready).sp.val = 0 + 1 ∧
    ready.sp.val = 0 := by decide

theorem witness_CallThenReturnContinuesAfterTheCall :
    ready.sp.val < 16 ∧ ∃ t, exec (.call 0x300) ready = .next t ∧ t.sp = t.sp ∧ t.stack = t.stack :=
  ⟨by decide, _, rfl, rfl, rfl⟩

theorem witness_EveryInstructionsNewPc :
    (∃ t, exec (.call 0x300) (withFrames 15 0 ready) = .next t) ∧
    (∃ t, exec (.call 0x300) (withFrames 16 0 ready) = .next t) ∧
    (∃ t, exec .ret (withFrames 16 0 ready) = .next t) ∧ (∃ t, exec .ret ready = .next t) ∧
    ∃ t, exec (.skp 15) ready = .next t := ⟨⟨_, rfl⟩, ⟨_, rfl⟩, ⟨_, rfl⟩, ⟨_, rfl⟩, ⟨_, rfl⟩⟩

theorem witness_ArithmeticLawsOfResultAndFlag :
    (14 : Reg) ≠ 15 ∧ 200 = ((withRegs [(14, 200), (15, 100)] ready).reg 14).toNat ∧
    100 = ((withRegs [(14, 200), (15, 100)] ready).reg 15).toNat := by decide

theorem witness_FlagRemainsWhenResultRegisterIsVf :
    100 = ((withRegs [(15, 100)] ready).reg 15).toNat ∧ 0 = ((withRegs [(15, 100)] ready).reg 0).toNat := by
  decide

theorem witness_FlagInstructionsFrame :
    Instr.shl 1 2 ∈ [Instr.addReg 1 2, .sub 1 2, .shr 1 2, .subn 1 2, .shl 1 2] ∧
    (2 : Reg) ≠ 1 ∧ (2 : Reg) ≠ 15 := by decide

theorem witness_VfAliasMattersOnlyForVf : (14 : Reg) ≠ 15 := by decide

theorem witness_RegisterDumpStoresV0ToVx : (15 : Reg) ≤ 15 ∧ (0 : Reg) ≤ 0 := by decide

/-- A covered cell that is set, one that is clear, and a cell no sprite bit covers; the last sprite bit
read for 15 rows. -/
theorem witness_DrawFlipsExactlyTheSpritesCells :
    15 < 16 ∧
    (SpriteCovers (withBytes [0x80] { ready with gfx := gfxToggle gfxClear 0 }) 0 0 1 0 ∧
      gfxCell (gfxToggle gfxClear 0) 0 = true) ∧
    (SpriteCovers (withBytes [0x80] ready) 0 0 1 0 ∧ gfxCell gfxClear 0 = false) ∧
    ¬ SpriteCovers (withBytes [0x80] ready) 0 0 0 0 :=
  ⟨by decide, ⟨⟨0, by decide, 0, by decide, by decide, by decide⟩, by decide⟩,
    ⟨⟨0, by decide, 0, by decide, by decide, by decide⟩, by decide⟩,
    fun ⟨_, h, _⟩ => absurd h (Nat.not_lt_zero _)⟩

/-- The second draw starts from the first one's state, whose coordinates (V0, V1) it kept. -/
theorem witness_DrawingTwiceRestoresTheBuffer :
    ∃ t u, exec (.drw 0 1 1) (withBytes [0x80] ready) = .next t ∧ t.gfx = t.gfx ∧
      t.reg 0 = (withBytes [0x80] ready).reg 0 ∧ t.reg 1 = (withBytes [0x80] ready).reg 1 ∧
      t.i = (withBytes [0x80] ready).i ∧
      (∀ k, k < 1 → t.memRead t.i k = (withBytes [0x80] ready).memRead (withBytes [0x80] ready).i k) ∧
      exec (.drw 0 1 1) t = .next u ∧
      (gfxCell (withBytes [0x80] ready).gfx 0 = false ∧ gfxCell t.gfx 0 = true) :=
  ⟨_, _, rfl, rfl, by decide, by decide, rfl, fun _ _ => rfl, rfl, by decide, by decide⟩

/-- A key down, a key up, and a number that names no key. -/
theorem witness_KeySkipsTestBitVx :
    (true = true ↔ ((withRegs [(1, 15)] { ready with kp := 0x8000 }).reg 1).toNat ≤ 15 ∧
      (withRegs [(1, 15)] { ready with kp := 0x8000 }).kp.getLsbD
        ((withRegs [(1, 15)] { ready with kp := 0x8000 }).reg 1).toNat = true) ∧
    (false = true ↔ ((withRegs [(1, 16)] { ready with kp := 0xFFFF }).reg 1).toNat ≤ 15 ∧
      (withRegs [(1, 16)] { ready with kp := 0xFFFF }).kp.getLsbD
        ((withRegs [(1, 16)] { ready with kp := 0xFFFF }).reg 1).toNat = true) := by decide

theorem witness_KeyWaitStoresTheLowestKey :
    15 < 16 ∧ (withKeys [0x8000] ready).env.sample.getLsbD 15 = true ∧
    ∀ j, j < 15 → (withKeys [0x8000] ready).env.sample.getLsbD j = false := by decide

theorem witness_KeyWaitStaysWithoutAKey : ready.env.sample = 0 := by decide

theorem witness_OnlyFlagInstructionsWriteVfUnasked :
    (∃ t, exec (.ldImm 14 1) ready = .next t) ∧
    (∀ x y, Instr.ldImm 14 1 ≠ .addReg x y ∧ Instr.ldImm 14 1 ≠ .sub x y ∧ Instr.ldImm 14 1 ≠ .shr x y ∧
      Instr.ldImm 14 1 ≠ .subn x y ∧ Instr.ldImm 14 1 ≠ .shl x y) ∧
    (∀ x y n, Instr.ldImm 14 1 ≠ .drw x y n) ∧
    (∀ y nn, Instr.ldImm 14 1 ≠ .ldImm 15 nn ∧ Instr.ldImm 14 1 ≠ .addImm 15 nn ∧
      Instr.ldImm 14 1 ≠ .ldReg 15 y ∧ Instr.ldImm 14 1 ≠ .orReg 15 y ∧
      Instr.ldImm 14 1 ≠ .andReg 15 y ∧ Instr.ldImm 14 1 ≠ .xorReg 15 y ∧
      Instr.ldImm 14 1 ≠ .rnd 15 nn ∧ Instr.ldImm 14 1 ≠ .ldVxDt 15 ∧ Instr.ldImm 14 1 ≠ .ldVxK 15 ∧
      Instr.ldImm 14 1 ≠ .loadRegs 15) :=
  ⟨⟨_, rfl⟩, fun _ _ => ⟨nofun, nofun, nofun, nofun, nofun⟩, fun _ _ _ => nofun,
    fun _ _ => ⟨by simp, nofun, nofun, nofun, nofun, nofun, nofun, nofun, nofun, nofun⟩⟩

theorem witness_OnlyCallAndReturnTouchTheStack :
    (∃ t, exec (.ldImm 0 1) ready = .next t) ∧ Instr.ldImm 0 1 ≠ .ret ∧
    ∀ nnn, Instr.ldImm 0 1 ≠ .call nnn := ⟨⟨_, rfl⟩, nofun, fun _ => nofun⟩

theorem witness_OnlyThreeInstructionsWriteTheIndex :
    (∃ t, exec (.storeRegs 15) ready = .next t) ∧ (∀ nnn, Instr.storeRegs 15 ≠ .ldI nnn) ∧
    ∀ x, Instr.storeRegs 15 ≠ .addI x ∧ Instr.storeRegs 15 ≠ .ldF x :=
  ⟨⟨_, rfl⟩, fun _ => nofun, fun _ => ⟨nofun, nofun⟩⟩

theorem witness_OnlyTwoInstructionsStore :
    (∃ t, exec (.loadRegs 15) ready = .next t) ∧
    ∀ x, Instr.loadRegs 15 ≠ .ldB x ∧ Instr.loadRegs 15 ≠ .storeRegs x :=
  ⟨⟨_, rfl⟩, fun _ => ⟨nofun, nofun⟩⟩

theorem witness_OnlyClearAndDrawTouchGraphics :
    (∃ t, exec (.ldF 0) ready = .next t) ∧ Instr.ldF 0 ≠ .cls ∧ ∀ x y n, Instr.ldF 0 ≠ .drw x y n :=
  ⟨⟨_, rfl⟩, nofun, fun _ _ _ => nofun⟩

theorem witness_TimersRiseOnlyByTheirInstructions :
    seen aboutToLoad (fun t => t.dt) = some 0 ∧
    ∀ x, aboutToLoad.env.turn = .core → aboutToLoad.run = .running →
      decodeWord aboutToLoad.fetch ≠ .ok (.ldDt x) := by
  refine ⟨by decide, fun x _ _ => ?_⟩
  have h : decodeWord aboutToLoad.fetch = .ok (.ldImm 10 0x7F) := by decide
  rw [h]; nofun

theorem witness_InstructionsUseOnlyTheirInputs :
    (∃ t, exec (.ldImm 0 1) ready = .next t) ∧ (∀ x, Instr.ldImm 0 1 ≠ .ldVxK x) ∧
    ∀ x nn, Instr.ldImm 0 1 ≠ .rnd x nn := ⟨⟨_, rfl⟩, fun _ => nofun, fun _ _ => nofun⟩

end Sys2Proof.Tests
end

section
/-! Proofs. The 8-bit arithmetic with a flag (41_load_alu.md R127 to R132): what each of the five
instructions writes, and what the result and the flag are as numbers. -/

namespace Sys2Proof.Machine

/-! ### What a flagged write leaves in its result register and in VF -/

theorem State.reg_writeFlagged_result (s : State) {r : Reg} (result flag : Byte) (h : r ≠ 15) :
    (s.writeFlagged r result flag).reg r = result := by
  rw [State.reg_writeFlagged, if_neg h, if_pos rfl]

@[simp] theorem State.reg_writeFlagged_flag (s : State) (r : Reg) (result flag : Byte) :
    (s.writeFlagged r result flag).reg 15 = flag := by
  rw [State.reg_writeFlagged, if_pos rfl]

/-! ### The carry and borrow flags as conditions -/

theorem carryFlag_eq_ite (a b : Byte) :
    carryFlag a b = if a.toNat + b.toNat > 255 then 1 else 0 := by
  simp only [carryFlag, flagByte, decide_eq_true_eq]

theorem notBorrowFlag_eq_ite (a b : Byte) :
    notBorrowFlag a b = if b.toNat > a.toNat then 0 else 1 := by
  simp only [notBorrowFlag, flagByte, Bool.not_eq_true', decide_eq_false_iff_not, ite_not]

/-! ### The five instructions as flagged writes -/

theorem exec_addReg (x y : Reg) (s : State) :
    exec (.addReg x y) s =
      .next (s.writeFlagged x (sumByte (s.reg x) (s.reg y)) (carryFlag (s.reg x) (s.reg y))) := rfl

theorem exec_sub (x y : Reg) (s : State) :
    exec (.sub x y) s =
      .next (s.writeFlagged x (diffByte (s.reg x) (s.reg y)) (notBorrowFlag (s.reg x) (s.reg y))) :=
  rfl

theorem exec_subn (x y : Reg) (s : State) :
    exec (.subn x y) s =
      .next (s.writeFlagged x (diffByte (s.reg y) (s.reg x)) (notBorrowFlag (s.reg y) (s.reg x))) :=
  rfl

theorem exec_shr (x y : Reg) (s : State) :
    exec (.shr x y) s = .next (s.writeFlagged x (halfByte (s.reg x)) (lowBitFlag (s.reg x))) := rfl

theorem exec_shl (x y : Reg) (s : State) :
    exec (.shl x y) s = .next (s.writeFlagged x (doubleByte (s.reg x)) (highBitFlag (s.reg x))) :=
  rfl

/-- Settles O36: each of the five instructions is a flagged write, so its law is that of the two
bytes it writes. -/
theorem arithmeticLawsOfResultAndFlag : Obligations.ArithmeticLawsOfResultAndFlag := by
  rintro s x y _ _ hx rfl rfl
  have result (v f : Byte) : (s.writeFlagged x v f).reg x = v :=
    State.reg_writeFlagged_result s v f hx
  refine ⟨?add, ?sub, ?subn, ?shr, ?shl⟩
  case add =>
    exact ⟨_, exec_addReg x y s, by rw [result, toNat_sumByte],
      by rw [State.reg_writeFlagged_flag, carryFlag_eq_ite]⟩
  case sub =>
    exact ⟨_, exec_sub x y s, by rw [result, toNat_diffByte],
      by rw [State.reg_writeFlagged_flag, notBorrowFlag_eq_ite]⟩
  case subn =>
    exact ⟨_, exec_subn x y s, by rw [result, toNat_diffByte],
      by rw [State.reg_writeFlagged_flag, notBorrowFlag_eq_ite]⟩
  case shr =>
    exact ⟨_, exec_shr x y s, by rw [result, toNat_halfByte],
      by rw [State.reg_writeFlagged_flag, toNat_lowBitFlag]⟩
  case shl =>
    exact ⟨_, exec_shl x y s, by rw [result, toNat_doubleByte],
      by rw [State.reg_writeFlagged_flag, toNat_highBitFlag]⟩

end Sys2Proof.Machine
end

section
/-! Proofs. Drawing (43_graphics.md R162, R163): the cells a draw toggles depend on its operands
alone, so a second draw with the same operands undoes the first and hits whatever it set. -/

namespace Sys2Proof.Machine

/-! ### The cells a draw toggles -/

/-- The cells under set sprite bits of `DRW Vx, Vy, N`, in the order they are toggled (R162). -/
def State.drawnCells (s : State) (x y : Reg) (n : Nat) : List (Fin 2048) :=
  spriteCells (s.reg x).toNat (s.reg y).toNat (s.indexBytes n)

theorem State.nodup_drawnCells (s : State) (x y : Reg) {n : Nat} (hn : n ≤ 32) :
    (s.drawnCells x y n).Nodup :=
  nodup_spriteCells _ _ _ (by simpa [State.indexBytes] using hn)

theorem State.drawnCells_congr {s s' : State} {x y : Reg} {n : Nat}
    (hx : s'.reg x = s.reg x) (hy : s'.reg y = s.reg y)
    (hbytes : ∀ k, k < n → s'.memRead s'.i k = s.memRead s.i k) :
    s'.drawnCells x y n = s.drawnCells x y n := by
  have same : s'.indexBytes n = s.indexBytes n :=
    List.map_congr_left fun k hk => hbytes k (List.mem_range.mp hk)
  rw [State.drawnCells, State.drawnCells, hx, hy, same]

/-! ### What a draw leaves in the buffer and in VF -/

theorem exec_drw (x y : Reg) (n : Nat) (s : State) :
    exec (.drw x y n) s = .next (({ s with gfx := (s.drawn x y n).1, df := true } : State).setReg
      flagReg (flagByte (s.drawn x y n).2)).advance := rfl

theorem gfxCell_of_exec_drw {s t : State} {x y : Reg} {n : Nat} (hn : n ≤ 32)
    (h : exec (.drw x y n) s = .next t) (k : Fin 2048) :
    gfxCell t.gfx k = (gfxCell s.gfx k ^^ decide (k ∈ s.drawnCells x y n)) := by
  rw [exec_drw] at h
  cases h
  exact gfxCell_toggleCells _ (s.nodup_drawnCells x y hn) s.gfx false k

theorem flag_of_exec_drw {s t : State} {x y : Reg} {n : Nat} (hn : n ≤ 32)
    (h : exec (.drw x y n) s = .next t) :
    t.reg 15 = flagByte ((s.drawnCells x y n).any fun k => gfxCell s.gfx k) := by
  have hit : (s.drawn x y n).2 = (s.drawnCells x y n).any fun k => gfxCell s.gfx k :=
    (hit_toggleCells _ (s.nodup_drawnCells x y hn) s.gfx false).trans (Bool.false_or _)
  rw [exec_drw, hit] at h
  cases h
  rw [State.reg_advance, flagReg, State.reg_setReg_self]

/-- Settles O47: both draws toggle the same cells, so the second undoes the first; a cell the first
one set is one of these, and it is set when the second reaches it. -/
theorem drawingTwiceRestoresTheBuffer : Obligations.DrawingTwiceRestoresTheBuffer := by
  intro s t t' u x y n hn first hgfx hx hy _ hbytes second
  have hn : n ≤ 32 := by omega
  have cells : t'.drawnCells x y n = s.drawnCells x y n := State.drawnCells_congr hx hy hbytes
  have afterFirst (k) := gfxCell_of_exec_drw hn first k
  refine ⟨fun k => ?restored, ?collision⟩
  case restored =>
    calc gfxCell u.gfx k
        = (gfxCell t.gfx k ^^ decide (k ∈ s.drawnCells x y n)) := by
          rw [gfxCell_of_exec_drw hn second, hgfx, cells]
      _ = gfxCell s.gfx k := by rw [afterFirst, Bool.xor_assoc, Bool.xor_self, Bool.xor_false]
  case collision =>
    rintro ⟨k, wasClear, nowSet⟩
    have drawn : k ∈ s.drawnCells x y n := by simpa [wasClear, nowSet] using afterFirst k
    have hit : ((s.drawnCells x y n).any fun k => gfxCell t.gfx k) = true :=
      List.any_eq_true.mpr ⟨k, drawn, nowSet⟩
    rw [flag_of_exec_drw hn second, hgfx, cells, hit]
    rfl

end Sys2Proof.Machine
end

section
/-! Proofs. The decoder and the encoder undo each other, the words that decode to nothing are those
of R82, and the opcode table's rows agree with the decoder (30_encoding.md R70 to R84). -/

namespace Sys2Proof

/-! ### The second dispatch level, as a set of codes -/

theorem decodeFamily0_error_iff (op : Word) :
    (∃ r, decodeFamily0 op = .error r) ↔ op ≠ 0x00E0 ∧ op ≠ 0x00EE := by
  unfold decodeFamily0
  split_ifs <;> simp_all

theorem decodeFamily8_error_iff (d : Fields) :
    (∃ r, decodeFamily8 d = .error r) ↔ d.n.toNat ∈ [0x8, 0x9, 0xA, 0xB, 0xC, 0xD, 0xF] := by
  unfold decodeFamily8
  rcases family_cases d.n with h | h | h | h | h | h | h | h | h | h | h | h | h | h | h | h <;>
    simp [h]

theorem decodeFamilyE_error_iff (d : Fields) :
    (∃ r, decodeFamilyE d = .error r) ↔ d.nn.toNat ∉ [0x9E, 0xA1] := by
  unfold decodeFamilyE
  split_ifs <;> simp_all [BitVec.toNat_eq]

theorem decodeFamilyF_error_iff (d : Fields) :
    (∃ r, decodeFamilyF d = .error r) ↔
      d.nn.toNat ∉ [0x07, 0x0A, 0x15, 0x18, 0x1E, 0x29, 0x33, 0x55, 0x65] := by
  unfold decodeFamilyF
  split_ifs <;> simp_all [BitVec.toNat_eq]

/-! ### Decoding an encoded instruction -/

theorem decodeWord_encode {i : Instr} (h : i.wellFormed = true) :
    decodeWord (encode i) = .ok i := by
  cases i with
  | cls | ret => decide
  | jp nnn | call nnn | ldI nnn | jpV0 nnn => simp [encode, decodeWord]
  | seImm x nn | sneImm x nn | ldImm x nn | addImm x nn | rnd x nn => simp [encode, decodeWord]
  | seReg x y n | sneReg x y n | drw x y n =>
    have hn : n < 16 := by simpa [Instr.wellFormed] using h
    simp [encode, decodeWord, Nat.mod_eq_of_lt hn]
  | ldReg x y | orReg x y | andReg x y | xorReg x y | addReg x y | sub x y | shr x y | subn x y
  | shl x y => simp [encode, decodeWord, decodeFamily8]
  | skp x | sknp x => simp [encode, decodeWord, decodeFamilyE]
  | ldVxDt x | ldVxK x | ldDt x | ldSt x | addI x | ldF x | ldB x | storeRegs x | loadRegs x =>
    simp [encode, decodeWord, decodeFamilyF]

theorem append_wordBytes (op : Word) :
    (op.extractLsb' 8 8 ++ op.extractLsb' 0 8 : Word) = op := by
  apply BitVec.eq_of_toNat_eq
  rw [toNat_append_lt]
  simp only [BitVec.extractLsb'_toNat, Nat.shiftRight_eq_div_pow]
  omega

theorem decodeBytes_wordBytes {op : Word} {i : Instr} (rest : List Byte)
    (h : decodeWord op = .ok i) : decodeBytes (wordBytes op ++ rest) = .ok (i, rest) := by
  simp only [wordBytes, List.cons_append, List.nil_append, decodeBytes, append_wordBytes, h]

/-- Settles O2, instruction by instruction: the fields of the encoded word are the operands. -/
theorem decodeGivesBackEveryEncodedInstruction :
    Obligations.DecodeGivesBackEveryEncodedInstruction := by
  intro i rest h
  exact ⟨decodeWord_encode h, decodeBytes_wordBytes rest (decodeWord_encode h)⟩

/-! ### Encoding a decoded word -/

theorem encode_of_decodeFamily0 {op : Word} {i : Instr} (hd : decodeFamily0 op = .ok i) :
    encode i = op ∧ i.wellFormed = true := by
  unfold decodeFamily0 at hd
  split_ifs at hd with hcls hret
  · cases hd; exact ⟨hcls.symm, rfl⟩
  · cases hd; exact ⟨hret.symm, rfl⟩

theorem encode_of_decodeFamily8 {op : Word} {i : Instr} (hf : (fields op).f = 0x8#4)
    (hd : decodeFamily8 (fields op) = .ok i) : encode i = op ∧ i.wellFormed = true := by
  unfold decodeFamily8 at hd
  split_ifs at hd with h0 h1 h2 h3 h4 h5 h6 h7 hE
  all_goals
    cases hd
    exact ⟨wordXYN_fields op hf (by assumption), rfl⟩

theorem encode_of_decodeFamilyE {op : Word} {i : Instr} (hf : (fields op).f = 0xE#4)
    (hd : decodeFamilyE (fields op) = .ok i) : encode i = op ∧ i.wellFormed = true := by
  unfold decodeFamilyE at hd
  split_ifs at hd with h9E hA1
  all_goals
    cases hd
    exact ⟨wordXNN_fields op hf (by assumption), rfl⟩

theorem encode_of_decodeFamilyF {op : Word} {i : Instr} (hf : (fields op).f = 0xF#4)
    (hd : decodeFamilyF (fields op) = .ok i) : encode i = op ∧ i.wellFormed = true := by
  unfold decodeFamilyF at hd
  split_ifs at hd with h07 h0A h15 h18 h1E h29 h33 h55 h65
  all_goals
    cases hd
    exact ⟨wordXNN_fields op hf (by assumption), rfl⟩

theorem encode_of_decodeWord {op : Word} {i : Instr} (hd : decodeWord op = .ok i) :
    encode i = op ∧ i.wellFormed = true := by
  have wfNibble : decide ((fields op).n.toNat < 16) = true := decide_eq_true (fields op).n.isLt
  have nibble : BitVec.ofNat 4 (fields op).n.toNat = (fields op).n := by simp
  rcases family_cases (fields op).f with hf | hf | hf | hf | hf | hf | hf | hf | hf | hf | hf | hf |
    hf | hf | hf | hf
  · exact encode_of_decodeFamily0 (decodeWord_f0 hf ▸ hd)
  · rw [decodeWord_f1 hf] at hd; cases hd; exact ⟨wordNNN_fields op hf, rfl⟩
  · rw [decodeWord_f2 hf] at hd; cases hd; exact ⟨wordNNN_fields op hf, rfl⟩
  · rw [decodeWord_f3 hf] at hd; cases hd; exact ⟨wordXNN_fields op hf rfl, rfl⟩
  · rw [decodeWord_f4 hf] at hd; cases hd; exact ⟨wordXNN_fields op hf rfl, rfl⟩
  · rw [decodeWord_f5 hf] at hd; cases hd; exact ⟨wordXYN_fields op hf nibble.symm, wfNibble⟩
  · rw [decodeWord_f6 hf] at hd; cases hd; exact ⟨wordXNN_fields op hf rfl, rfl⟩
  · rw [decodeWord_f7 hf] at hd; cases hd; exact ⟨wordXNN_fields op hf rfl, rfl⟩
  · exact encode_of_decodeFamily8 hf (decodeWord_f8 hf ▸ hd)
  · rw [decodeWord_f9 hf] at hd; cases hd; exact ⟨wordXYN_fields op hf nibble.symm, wfNibble⟩
  · rw [decodeWord_f10 hf] at hd; cases hd; exact ⟨wordNNN_fields op hf, rfl⟩
  · rw [decodeWord_f11 hf] at hd; cases hd; exact ⟨wordNNN_fields op hf, rfl⟩
  · rw [decodeWord_f12 hf] at hd; cases hd; exact ⟨wordXNN_fields op hf rfl, rfl⟩
  · rw [decodeWord_f13 hf] at hd; cases hd; exact ⟨wordXYN_fields op hf nibble.symm, wfNibble⟩
  · exact encode_of_decodeFamilyE hf (decodeWord_f14 hf ▸ hd)
  · exact encode_of_decodeFamilyF hf (decodeWord_f15 hf ▸ hd)

/-- Settles O3, family by family: a word is rebuilt from the fields its decoding keeps. -/
theorem encodeGivesBackEveryDecodedWord : Obligations.EncodeGivesBackEveryDecodedWord :=
  fun _ _ => encode_of_decodeWord

/-! ### The words that decode to nothing -/

/-- A word is rejected only in a family with a second dispatch level, and there exactly when that
level rejects it (R74). -/
theorem decodeWord_error_iff (op : Word) :
    (∃ r, decodeWord op = .error r) ↔
      ((fields op).f = 0x0#4 ∧ ∃ r, decodeFamily0 op = .error r) ∨
      ((fields op).f = 0x8#4 ∧ ∃ r, decodeFamily8 (fields op) = .error r) ∨
      ((fields op).f = 0xE#4 ∧ ∃ r, decodeFamilyE (fields op) = .error r) ∨
      ((fields op).f = 0xF#4 ∧ ∃ r, decodeFamilyF (fields op) = .error r) := by
  rcases family_cases (fields op).f with hf | hf | hf | hf | hf | hf | hf | hf | hf | hf | hf | hf |
    hf | hf | hf | hf <;>
    simp [decodeWord, hf]

theorem family_eq_iff (op : Word) (f : BitVec 4) :
    (fields op).f = f ↔ op.toNat / 0x1000 = f.toNat := by
  rw [← BitVec.toNat_inj, fields_f_toNat]

/-- Settles O4: the four families with a second dispatch level reject the codes they do not list. -/
theorem invalidWordsAreThoseListed : Obligations.InvalidWordsAreThoseListed := by
  intro op
  have family0 : op.toNat / 0x1000 = 0 ↔ op.toNat < 0x1000 := by omega
  rw [decodeWord_error_iff, decodeFamily0_error_iff, decodeFamily8_error_iff,
    decodeFamilyE_error_iff, decodeFamilyF_error_iff, fields_n_toNat, fields_nn_toNat]
  simp only [family_eq_iff, BitVec.toNat_ofNat, Nat.reducePow, Nat.reduceMod, family0]

/-! ### The opcode table's rows -/

open Laws.EncodesItsRow in
theorem encode_and_mask (i : Instr) : encode i &&& (rowOf i).mask = (rowOf i).val := by
  cases i with
  | cls | ret => rfl
  | jp | call | ldI | jpV0 => exact (ofNNN _ _).trans rfl
  | seImm | sneImm | ldImm | addImm | rnd => exact (ofXNN _ _ _).trans rfl
  | seReg | sneReg | drw => exact (ofXYN _ _ _ _).trans rfl
  | ldReg | orReg | andReg | xorReg | addReg | sub | shr | subn | shl =>
    exact (ofXY _ _ _ _).trans rfl
  | skp | sknp | ldVxDt | ldVxK | ldDt | ldSt | addI | ldF | ldB | storeRegs | loadRegs =>
    exact (ofX _ _ _).trans rfl

theorem selects_of_decodeWord {op : Word} {i : Instr} (hd : decodeWord op = .ok i) :
    (rowOf i).selects op = true := by
  rw [Row.selects, ← (encode_of_decodeWord hd).1]
  exact decide_eq_true (encode_and_mask i)

/-! What a mask fixes of the fields: the family, and `N` or `NN` where it keeps them. -/

theorem family_of_and_F000 {op v : Word} (h : op &&& 0xF000#16 = v) :
    (fields op).f = (fields v).f := by
  rw [← h, and_F000, fields_wordNNN_f]

theorem codes_of_and_F00F {op v : Word} (h : op &&& 0xF00F#16 = v) :
    (fields op).f = (fields v).f ∧ (fields op).n = (fields v).n := by
  rw [← h, and_F00F, fields_wordXYN_f, fields_wordXYN_n]; exact ⟨rfl, rfl⟩

theorem codes_of_and_F0FF {op v : Word} (h : op &&& 0xF0FF#16 = v) :
    (fields op).f = (fields v).f ∧ (fields op).nn = (fields v).nn := by
  rw [← h, and_F0FF, fields_wordXNN_f, fields_wordXNN_nn]; exact ⟨rfl, rfl⟩

theorem eq_of_and_FFFF {op v : Word} (h : op &&& 0xFFFF#16 = v) : op = v := by
  rw [← h]; exact (BitVec.and_allOnes (x := op)).symm

/-- A word a row selects decodes to an instruction of that row (R84). -/
theorem decodeWord_of_selects {op : Word} {j : Instr} (hs : (rowOf j).selects op = true) :
    ∃ i, decodeWord op = .ok i ∧ rowOf i = rowOf j := by
  have h : op &&& (rowOf j).mask = (rowOf j).val := of_decide_eq_true hs
  cases j with
  | cls | ret => exact ⟨_, by rw [eq_of_and_FFFF h]; decide, rfl⟩
  | jp => exact ⟨_, decodeWord_f1 (family_of_and_F000 (v := 0x1000#16) h), rfl⟩
  | call => exact ⟨_, decodeWord_f2 (family_of_and_F000 (v := 0x2000#16) h), rfl⟩
  | seImm => exact ⟨_, decodeWord_f3 (family_of_and_F000 (v := 0x3000#16) h), rfl⟩
  | sneImm => exact ⟨_, decodeWord_f4 (family_of_and_F000 (v := 0x4000#16) h), rfl⟩
  | seReg => exact ⟨_, decodeWord_f5 (family_of_and_F000 (v := 0x5000#16) h), rfl⟩
  | ldImm => exact ⟨_, decodeWord_f6 (family_of_and_F000 (v := 0x6000#16) h), rfl⟩
  | addImm => exact ⟨_, decodeWord_f7 (family_of_and_F000 (v := 0x7000#16) h), rfl⟩
  | sneReg => exact ⟨_, decodeWord_f9 (family_of_and_F000 (v := 0x9000#16) h), rfl⟩
  | ldI => exact ⟨_, decodeWord_f10 (family_of_and_F000 (v := 0xA000#16) h), rfl⟩
  | jpV0 => exact ⟨_, decodeWord_f11 (family_of_and_F000 (v := 0xB000#16) h), rfl⟩
  | rnd => exact ⟨_, decodeWord_f12 (family_of_and_F000 (v := 0xC000#16) h), rfl⟩
  | drw => exact ⟨_, decodeWord_f13 (family_of_and_F000 (v := 0xD000#16) h), rfl⟩
  | ldReg | orReg | andReg | xorReg | addReg | sub | shr | subn | shl =>
    simp only [rowOf] at h
    obtain ⟨hf, hn⟩ := codes_of_and_F00F h
    rw [decodeWord_f8 hf, decodeFamily8, hn]
    exact ⟨_, rfl, rfl⟩
  | skp | sknp =>
    simp only [rowOf] at h
    obtain ⟨hf, hn⟩ := codes_of_and_F0FF h
    rw [decodeWord_f14 hf, decodeFamilyE, hn]
    exact ⟨_, rfl, rfl⟩
  | ldVxDt | ldVxK | ldDt | ldSt | addI | ldF | ldB | storeRegs | loadRegs =>
    simp only [rowOf] at h
    obtain ⟨hf, hn⟩ := codes_of_and_F0FF h
    rw [decodeWord_f15 hf, decodeFamilyF, hn]
    exact ⟨_, rfl, rfl⟩

/-- Settles O5: a word a row selects decodes to an instruction of that row, and a word decodes to
one instruction only, so two rows that select it are the same. -/
theorem tableRowsAgreeWithTheDecoder : Obligations.TableRowsAgreeWithTheDecoder := by
  refine ⟨fun op i j hi hj => ?unique, fun _ _ => selects_of_decodeWord,
    fun _ _ => decodeWord_of_selects⟩
  case unique =>
    obtain ⟨i', di, ri⟩ := decodeWord_of_selects hi
    obtain ⟨j', dj, rj⟩ := decodeWord_of_selects hj
    have same : i' = j' := Except.ok.inj (di.symm.trans dj)
    rw [← ri, ← rj, same]

/-- Settles O1, by evaluating the decoder on the eighteen words. -/
theorem sampleWordsDecodeAsListed : Obligations.SampleWordsDecodeAsListed := by
  unfold Obligations.SampleWordsDecodeAsListed
  decide

end Sys2Proof
end

section
/-! Proofs. What an instruction is made of, what it leaves unchanged, and the rules over all
instructions that follow (10_state.md R22 to R35, 20_memory.md R51). -/

namespace Sys2Proof.Machine

/-! ### Frames -/

theorem Part.same_trans {s t u : State} {p : Part} (h : p.same s t) (k : p.same t u) :
    p.same s u := by
  cases p with
  | registers | pixels | memory => exact fun a => (k a).trans (h a)
  | callStack => exact ⟨k.1.trans h.1, k.2.trans h.2⟩
  | runLoop => exact ⟨k.1.trans h.1, k.2.1.trans h.2.1, k.2.2.trans h.2.2⟩
  | index | delayTimer | soundTimer | drawFlag | keypadLatch | loaded | outside =>
    exact Eq.trans k h

theorem SameBut.refl (ps : List Part) (s : State) : SameBut ps s s := by
  intro p _
  cases p <;> simp [Part.same]

theorem SameBut.trans {ps : List Part} {s t u : State} (h : SameBut ps s t) (k : SameBut ps t u) :
    SameBut ps s u :=
  fun p hp => Part.same_trans (h p hp) (k p hp)

theorem SameBut.mono {ps qs : List Part} {s t : State} (h : SameBut ps s t) (sub : ps ⊆ qs) :
    SameBut qs s t :=
  fun p hp => h p fun hq => hp (sub hq)

theorem sameBut_setPc (ps : List Part) (s : State) (a : Word) : SameBut ps s (s.setPc a) := by
  intro p _
  cases p <;> simp [Part.same]

theorem sameBut_advance (ps : List Part) (s : State) : SameBut ps s s.advance :=
  sameBut_setPc ps s _

theorem sameBut_skipIf (ps : List Part) (s : State) (c : Bool) : SameBut ps s (s.skipIf c) :=
  sameBut_setPc ps s _

theorem sameBut_setReg (s : State) (r : Reg) (v : Byte) :
    SameBut [.registers] s (s.setReg r v) := by
  intro p hp
  cases p <;> simp_all [Part.same]

theorem sameBut_writeFlagged (s : State) (r : Reg) (result flag : Byte) :
    SameBut [.registers] s (s.writeFlagged r result flag) := by
  intro p hp
  cases p <;> simp_all [Part.same]

theorem sameBut_loadRange (s : State) (rs : List Reg) :
    SameBut [.registers] s (s.loadRange rs) := by
  intro p hp
  cases p <;> simp_all [Part.same]

theorem sameBut_setI (s : State) (a : Word) : SameBut [.index] s (s.setI a) := by
  intro p hp
  cases p <;> simp_all [Part.same]

theorem sameBut_storeFrom (s : State) (b : Word) (k : Nat) (vs : List Byte) :
    SameBut [.memory] s (s.storeFrom b k vs) := by
  intro p hp
  cases p <;> simp_all [Part.same]

theorem sameBut_raise (s : State) (f : FaultCause) (w : Word) :
    SameBut [.runLoop] s (s.raise f w) := by
  intro p hp
  cases p <;> simp_all [Part.same]

theorem sameBut_sampleKeypad (s : State) :
    SameBut [.keypadLatch, .outside] s s.sampleKeypad := by
  intro p hp
  cases p <;> simp_all [Part.same]

theorem sameBut_takeTurn (s : State) : SameBut [.outside] s s.takeTurn := by
  intro p hp
  cases p <;> simp_all [Part.same]

theorem sameBut_tick (s : State) : SameBut [.delayTimer, .soundTimer] s s.tick := by
  intro p hp
  cases p <;> simp_all [Part.same]

theorem sameBut_pushDisplay (s : State) :
    SameBut [.drawFlag, .outside] s s.pushDisplay := by
  intro p hp
  cases p <;> simp_all [Part.same]

/-! Frames of plain field updates. -/

theorem sameBut_graphics (s : State) (g : Gfx) (d : Bool) :
    SameBut [.pixels, .drawFlag] s { s with gfx := g, df := d } := by
  intro p hp
  cases p <;> simp_all [Part.same, State.reg, State.byteAt]

theorem sameBut_afterRng (s : State) :
    SameBut [.outside] s { s with env := s.env.afterRng } := by
  intro p hp
  cases p <;> simp_all [Part.same, State.reg, State.byteAt]

theorem sameBut_dt (s : State) (v : Byte) : SameBut [.delayTimer] s { s with dt := v } := by
  intro p hp
  cases p <;> simp_all [Part.same, State.reg, State.byteAt]

theorem sameBut_st (s : State) (v : Byte) : SameBut [.soundTimer] s { s with st := v } := by
  intro p hp
  cases p <;> simp_all [Part.same, State.reg, State.byteAt]

theorem sameBut_run (s : State) (r : Run) : SameBut [.runLoop] s { s with run := r } := by
  intro p hp
  cases p <;> simp_all [Part.same, State.reg, State.byteAt]

theorem sameBut_callStack (s : State) (stack : Vector Word 16) (sp : Fin 17) :
    SameBut [.callStack] s { s with stack := stack, sp := sp } := by
  intro p hp
  cases p <;> simp_all [Part.same, State.reg, State.byteAt]

theorem sameBut_loadedMemory (s : State) (m : Memory) (l : Bool) :
    SameBut [.memory, .loaded] s { s with mem := m, loaded := l } := by
  intro p hp
  cases p <;> simp_all [Part.same, State.reg]

/-! ### Call and return, by the room on the stack -/

theorem State.callTo_of_room {s : State} (target op : Word) (h : s.sp.val < 16) :
    s.callTo target op = State.setPc { s with
      stack := s.stack.set s.sp.val s.pc h, sp := ⟨s.sp.val + 1, by omega⟩ } target :=
  dif_pos h

theorem State.callTo_of_full {s : State} (target op : Word) (h : ¬ s.sp.val < 16) :
    s.callTo target op = s.raise .stackOverflow op :=
  dif_neg h

theorem State.popReturn_of_frames {s : State} (op : Word) (h : 0 < s.sp.val) :
    s.popReturn op = State.setPc { s with
      stack := s.stack, sp := ⟨s.sp.val - 1, by omega⟩ } (s.stack[s.sp.val - 1] + 2) :=
  dif_pos h

theorem State.popReturn_of_empty {s : State} (op : Word) (h : ¬ 0 < s.sp.val) :
    s.popReturn op = s.raise .stackUnderflow op :=
  dif_neg h

theorem sameBut_callTo (s : State) (target op : Word) :
    SameBut [.callStack, .runLoop] s (s.callTo target op) := by
  by_cases room : s.sp.val < 16
  · rw [State.callTo_of_room _ _ room]
    exact ((sameBut_callStack s _ _).mono (by decide)).trans (sameBut_setPc _ _ _)
  · rw [State.callTo_of_full _ _ room]
    exact (sameBut_raise s _ _).mono (by decide)

theorem sameBut_popReturn (s : State) (op : Word) :
    SameBut [.callStack, .runLoop] s (s.popReturn op) := by
  by_cases frames : 0 < s.sp.val
  · rw [State.popReturn_of_frames _ frames]
    exact ((sameBut_callStack s _ _).mono (by decide)).trans (sameBut_setPc _ _ _)
  · rw [State.popReturn_of_empty _ frames]
    exact (sameBut_raise s _ _).mono (by decide)

/-! ### The instructions as named operations -/

theorem exec_cls (s : State) :
    exec .cls s = .next ({ s with gfx := gfxClear, df := true } : State).advance := rfl
theorem exec_ret (s : State) : exec .ret s = .next (s.popReturn (encode .ret)) := rfl
theorem exec_jp (nnn : Addr12) (s : State) :
    exec (.jp nnn) s = .next (s.setPc (addrWord nnn)) := rfl
theorem exec_call (nnn : Addr12) (s : State) :
    exec (.call nnn) s = .next (s.callTo (addrWord nnn) (encode (.call nnn))) := rfl
theorem exec_seImm (x : Reg) (nn : Byte) (s : State) :
    exec (.seImm x nn) s = .next (s.skipIf (decide (s.reg x = nn))) := rfl
theorem exec_sneImm (x : Reg) (nn : Byte) (s : State) :
    exec (.sneImm x nn) s = .next (s.skipIf (decide (s.reg x ≠ nn))) := rfl
theorem exec_seReg (x y : Reg) (n : Nat) (s : State) :
    exec (.seReg x y n) s = .next (s.skipIf (decide (s.reg x = s.reg y))) := rfl
theorem exec_sneReg (x y : Reg) (n : Nat) (s : State) :
    exec (.sneReg x y n) s = .next (s.skipIf (decide (s.reg x ≠ s.reg y))) := rfl
theorem exec_jpV0 (nnn : Addr12) (s : State) :
    exec (.jpV0 nnn) s = .next (s.setPc (addrWord nnn + byteWord (s.reg 0))) := rfl
theorem exec_ldImm (x : Reg) (nn : Byte) (s : State) :
    exec (.ldImm x nn) s = .next (s.setReg x nn).advance := rfl
theorem exec_addImm (x : Reg) (nn : Byte) (s : State) :
    exec (.addImm x nn) s = .next (s.setReg x (sumByte (s.reg x) nn)).advance := rfl
theorem exec_ldReg (x y : Reg) (s : State) :
    exec (.ldReg x y) s = .next (s.setReg x (s.reg y)).advance := rfl
theorem exec_orReg (x y : Reg) (s : State) :
    exec (.orReg x y) s = .next (s.setReg x (s.reg x ||| s.reg y)).advance := rfl
theorem exec_andReg (x y : Reg) (s : State) :
    exec (.andReg x y) s = .next (s.setReg x (s.reg x &&& s.reg y)).advance := rfl
theorem exec_xorReg (x y : Reg) (s : State) :
    exec (.xorReg x y) s = .next (s.setReg x (s.reg x ^^^ s.reg y)).advance := rfl
theorem exec_ldI (nnn : Addr12) (s : State) :
    exec (.ldI nnn) s = .next (s.setI (addrWord nnn)).advance := rfl
theorem exec_addI (x : Reg) (s : State) :
    exec (.addI x) s = .next (s.setI (s.i + byteWord (s.reg x))).advance := rfl
theorem exec_ldF (x : Reg) (s : State) :
    exec (.ldF x) s = .next (s.setI (5 * byteWord (s.reg x))).advance := rfl
theorem exec_ldB (x : Reg) (s : State) :
    exec (.ldB x) s = .next (s.storeFrom s.i 0 (decimalDigits (s.reg x))).advance := rfl
theorem exec_storeRegs (x : Reg) (s : State) :
    exec (.storeRegs x) s = .next (s.storeFrom s.i 0 ((regRange x).map s.reg)).advance := rfl
theorem exec_loadRegs (x : Reg) (s : State) :
    exec (.loadRegs x) s = .next (s.loadRange (regRange x)).advance := rfl
theorem exec_rnd (x : Reg) (nn : Byte) (s : State) :
    exec (.rnd x nn) s = .next (({ s with env := s.env.afterRng } : State).setReg x
      (s.env.rngByte &&& nn)).advance := rfl
theorem exec_skp (x : Reg) (s : State) :
    exec (.skp x) s = .next (s.skipIf (keyDown s.kp (s.reg x))) := rfl
theorem exec_sknp (x : Reg) (s : State) :
    exec (.sknp x) s = .next (s.skipIf (! keyDown s.kp (s.reg x))) := rfl
theorem exec_ldVxDt (x : Reg) (s : State) :
    exec (.ldVxDt x) s = .next (s.setReg x s.dt).advance := rfl
theorem exec_ldDt (x : Reg) (s : State) :
    exec (.ldDt x) s = .next ({ s with dt := s.reg x } : State).advance := rfl
theorem exec_ldSt (x : Reg) (s : State) :
    exec (.ldSt x) s = .next ({ s with st := s.reg x } : State).advance := rfl

/-- The key-wait, by the fresh sample (R175). -/
theorem exec_ldVxK_cases (x : Reg) (s : State) :
    (s.env.sample = 0 ∧ exec (.ldVxK x) s = .next s.sampleKeypad) ∨
    (s.env.sample ≠ 0 ∧ exec (.ldVxK x) s =
      .next (s.sampleKeypad.setReg x (BitVec.ofNat 8 (lowestKey s.env.sample))).advance) :=
  execLdVxK_cases x s

/-! ### What each instruction may change beside `pc` -/

/-- The parts of the machine an instruction may change. -/
def writtenParts : Instr → List Part
  | .cls => [.pixels, .drawFlag]
  | .ret | .call _ => [.callStack, .runLoop]
  | .jp _ | .jpV0 _ | .seImm _ _ | .sneImm _ _ | .seReg _ _ _ | .sneReg _ _ _ => []
  | .skp _ | .sknp _ => []
  | .ldImm _ _ | .addImm _ _ | .ldReg _ _ | .orReg _ _ | .andReg _ _ | .xorReg _ _ => [.registers]
  | .addReg _ _ | .sub _ _ | .shr _ _ | .subn _ _ | .shl _ _ => [.registers]
  | .ldI _ | .addI _ | .ldF _ => [.index]
  | .ldB _ | .storeRegs _ => [.memory]
  | .loadRegs _ | .ldVxDt _ => [.registers]
  | .rnd _ _ => [.registers, .outside]
  | .drw _ _ _ => [.registers, .pixels, .drawFlag]
  | .ldVxK _ => [.registers, .keypadLatch, .outside]
  | .ldDt _ => [.delayTimer]
  | .ldSt _ => [.soundTimer]

/-- The registers an instruction may write: its destination, and VF for the flag instructions. -/
def writtenRegs : Instr → List Reg
  | .ldImm x _ | .addImm x _ | .ldReg x _ | .orReg x _ | .andReg x _ | .xorReg x _ => [x]
  | .rnd x _ | .ldVxDt x | .ldVxK x => [x]
  | .addReg x _ | .sub x _ | .shr x _ | .subn x _ | .shl x _ => [x, 15]
  | .drw _ _ _ => [15]
  | .loadRegs x => regRange x
  | .cls | .ret | .call _ | .jp _ | .jpV0 _ | .seImm _ _ | .sneImm _ _ | .seReg _ _ _ => []
  | .sneReg _ _ _ | .skp _ | .sknp _ | .ldI _ | .addI _ | .ldF _ | .ldB _ | .storeRegs _ => []
  | .ldDt _ | .ldSt _ => []

theorem exec_frame {i : Instr} {s t : State} (h : exec i s = .next t) :
    SameBut (writtenParts i) s t := by
  cases i with
  | cls => cases h; exact (sameBut_graphics s _ _).trans (sameBut_advance _ _)
  | ret => cases h; exact sameBut_popReturn s _
  | call => cases h; exact sameBut_callTo s _ _
  | jp | jpV0 => cases h; exact sameBut_setPc _ s _
  | seImm | sneImm | seReg | sneReg | skp | sknp => cases h; exact sameBut_skipIf _ s _
  | ldImm | addImm | ldReg | orReg | andReg | xorReg | ldVxDt =>
    cases h; exact (sameBut_setReg s _ _).trans (sameBut_advance _ _)
  | addReg | sub | shr | subn | shl => cases h; exact sameBut_writeFlagged s _ _ _
  | ldI | addI | ldF => cases h; exact (sameBut_setI s _).trans (sameBut_advance _ _)
  | ldB | storeRegs => cases h; exact (sameBut_storeFrom s _ _ _).trans (sameBut_advance _ _)
  | loadRegs => cases h; exact (sameBut_loadRange s _).trans (sameBut_advance _ _)
  | rnd =>
    cases h
    exact (((sameBut_afterRng s).mono (by simp [writtenParts])).trans
      ((sameBut_setReg _ _ _).mono (by simp [writtenParts]))).trans (sameBut_advance _ _)
  | drw =>
    cases h
    exact (((sameBut_graphics s _ _).mono (by simp [writtenParts])).trans
      ((sameBut_setReg _ _ _).mono (by simp [writtenParts]))).trans (sameBut_advance _ _)
  | ldVxK x =>
    have sampled : SameBut (writtenParts (.ldVxK x)) s s.sampleKeypad :=
      (sameBut_sampleKeypad s).mono (by simp [writtenParts])
    obtain ⟨_, e⟩ | ⟨_, e⟩ := exec_ldVxK_cases x s <;> rw [e] at h <;> cases h
    · exact sampled
    · exact (sampled.trans ((sameBut_setReg _ _ _).mono (by simp [writtenParts]))).trans
        (sameBut_advance _ _)
  | ldDt => cases h; exact (sameBut_dt s _).trans (sameBut_advance _ _)
  | ldSt => cases h; exact (sameBut_st s _).trans (sameBut_advance _ _)

theorem exec_reg {i : Instr} {s t : State} (h : exec i s = .next t) {q : Reg}
    (hq : q ∉ writtenRegs i) : t.reg q = s.reg q := by
  cases i with
  | ldImm x | addImm x | ldReg x | orReg x | andReg x | xorReg x | ldVxDt x | rnd x =>
    cases h; exact State.reg_setReg_ne _ (by simpa [writtenRegs] using hq) _
  | addReg x | sub x | shr x | subn x | shl x =>
    cases h
    simp only [writtenRegs, List.mem_cons, List.not_mem_nil, or_false, not_or] at hq
    rw [State.reg_writeFlagged, if_neg hq.2, if_neg hq.1]
  | drw => cases h; exact State.reg_setReg_ne _ (by simpa [writtenRegs, flagReg] using hq) _
  | loadRegs x =>
    cases h
    exact (State.reg_loadRange s _ q).trans (if_neg hq)
  | ldVxK x =>
    obtain ⟨_, e⟩ | ⟨_, e⟩ := exec_ldVxK_cases x s <;> rw [e] at h <;> cases h
    · rfl
    · exact State.reg_setReg_ne _ (by simpa [writtenRegs] using hq) _
  | cls | ret | call | jp | jpV0 | seImm | sneImm | seReg | sneReg | skp | sknp | ldI | addI | ldF
  | ldB | storeRegs | ldDt | ldSt =>
    exact exec_frame h .registers (by simp [writtenParts]) q

/-! ### How an instruction can end -/

/-- A call on a full stack and a return on an empty one take their fault and do nothing else; every
other instruction leaves `RUN` and the fault registers alone (R220, R226). -/
theorem exec_fault_cases {i : Instr} {s t : State} (h : exec i s = .next t) :
    (Part.same s t .runLoop ∧ (∀ nnn, i = .call nnn → s.sp.val < 16) ∧
      (i = .ret → 0 < s.sp.val)) ∨
    (∃ nnn, i = .call nnn ∧ s.sp.val = 16 ∧ t = s.raise .stackOverflow (encode i)) ∨
    (i = .ret ∧ s.sp.val = 0 ∧ t = s.raise .stackUnderflow (encode i)) := by
  by_cases touches : Part.runLoop ∈ writtenParts i
  case neg =>
    refine .inl ⟨exec_frame h .runLoop touches, ?_, ?_⟩
    · rintro nnn rfl; simp [writtenParts] at touches
    · rintro rfl; simp [writtenParts] at touches
  case pos =>
    cases i with
    | call nnn =>
      rw [exec_call] at h
      cases h
      obtain ⟨room, e⟩ | ⟨full, e⟩ := s.callTo_cases (addrWord nnn) (encode (.call nnn))
      · exact .inl ⟨by rw [e]; exact ⟨rfl, rfl, rfl⟩, fun _ _ => room, nofun⟩
      · exact .inr (.inl ⟨nnn, rfl, full, e⟩)
    | ret =>
      rw [exec_ret] at h
      cases h
      obtain ⟨frames, e⟩ | ⟨empty, e⟩ := s.popReturn_cases (encode .ret)
      · exact .inl ⟨by rw [e]; exact ⟨rfl, rfl, rfl⟩, nofun, fun _ => frames⟩
      · exact .inr (.inr ⟨rfl, empty, e⟩)
    | _ => simp [writtenParts] at touches

/-! ### The rules -/

/-- Settles O54: VF is no register that such an instruction may write. -/
theorem onlyFlagInstructionsWriteVfUnasked : Obligations.OnlyFlagInstructionsWriteVfUnasked := by
  intro i s t h notFlag notDraw notOwn
  refine exec_reg h fun mem => ?_
  cases i with
  | addReg x y | sub x y | shr x y | subn x y | shl x y => simpa using notFlag x y
  | drw x y n => exact notDraw x y n rfl
  | loadRegs x =>
    have top : x = 15 := Fin.le_antisymm (Fin.le_last x) ((mem_regRange x 15).mp mem)
    subst top
    simpa using notOwn 0 0
  | ldReg x y | orReg x y | andReg x y | xorReg x y =>
    obtain rfl : 15 = x := by simpa [writtenRegs] using mem
    simpa using notOwn y 0
  | ldImm x nn | addImm x nn | rnd x nn =>
    obtain rfl : 15 = x := by simpa [writtenRegs] using mem
    simpa using notOwn 0 nn
  | ldVxDt x | ldVxK x =>
    obtain rfl : 15 = x := by simpa [writtenRegs] using mem
    simpa using notOwn 0 0
  | cls | ret | call | jp | jpV0 | seImm | sneImm | seReg | sneReg | skp | sknp | ldI | addI | ldF
  | ldB | storeRegs | ldDt | ldSt => simp [writtenRegs] at mem

theorem callStack_mem_writtenParts {i : Instr} (h : .callStack ∈ writtenParts i) :
    i = .ret ∨ ∃ nnn, i = .call nnn := by
  cases i <;> simp_all [writtenParts]

theorem index_mem_writtenParts {i : Instr} (h : .index ∈ writtenParts i) :
    (∃ nnn, i = .ldI nnn) ∨ ∃ x, i = .addI x ∨ i = .ldF x := by
  cases i <;> simp_all [writtenParts]

theorem memory_mem_writtenParts {i : Instr} (h : .memory ∈ writtenParts i) :
    ∃ x, i = .ldB x ∨ i = .storeRegs x := by
  cases i <;> simp_all [writtenParts]

theorem graphics_mem_writtenParts {i : Instr}
    (h : .drawFlag ∈ writtenParts i ∨ .pixels ∈ writtenParts i) :
    i = .cls ∨ ∃ x y n, i = .drw x y n := by
  cases i <;> simp_all [writtenParts]

theorem delayTimer_mem_writtenParts {i : Instr} (h : .delayTimer ∈ writtenParts i) :
    ∃ x, i = .ldDt x := by
  cases i <;> simp_all [writtenParts]

theorem soundTimer_mem_writtenParts {i : Instr} (h : .soundTimer ∈ writtenParts i) :
    ∃ x, i = .ldSt x := by
  cases i <;> simp_all [writtenParts]

/-- Settles O55. -/
theorem onlyCallAndReturnTouchTheStack : Obligations.OnlyCallAndReturnTouchTheStack := by
  intro i s t h notRet notCall
  have untouched : .callStack ∉ writtenParts i := fun mem =>
    (callStack_mem_writtenParts mem).elim notRet fun ⟨nnn, e⟩ => notCall nnn e
  obtain ⟨hsp, hstack⟩ := exec_frame h .callStack untouched
  obtain ⟨sameRun, _⟩ | ⟨nnn, e, _⟩ | ⟨e, _⟩ := exec_fault_cases h
  · exact ⟨hsp, hstack, sameRun⟩
  · exact absurd e (notCall nnn)
  · exact absurd e notRet

/-- Settles O56. -/
theorem onlyThreeInstructionsWriteTheIndex : Obligations.OnlyThreeInstructionsWriteTheIndex := by
  intro i s t h notLdI notOther
  refine exec_frame h .index fun mem => ?_
  obtain ⟨nnn, e⟩ | ⟨x, e | e⟩ := index_mem_writtenParts mem
  · exact notLdI nnn e
  · exact (notOther x).1 e
  · exact (notOther x).2 e

/-- Settles O57. -/
theorem onlyTwoInstructionsStore : Obligations.OnlyTwoInstructionsStore := by
  intro i s t h notStore
  refine exec_frame h .memory fun mem => ?_
  obtain ⟨x, e | e⟩ := memory_mem_writtenParts mem
  · exact (notStore x).1 e
  · exact (notStore x).2 e

/-- Settles O58. -/
theorem onlyClearAndDrawTouchGraphics : Obligations.OnlyClearAndDrawTouchGraphics := by
  intro i s t h notCls notDrw
  have untouched : ¬ (.drawFlag ∈ writtenParts i ∨ .pixels ∈ writtenParts i) := fun mem =>
    (graphics_mem_writtenParts mem).elim notCls fun ⟨x, y, n, e⟩ => notDrw x y n e
  rw [not_or] at untouched
  exact ⟨exec_frame h .drawFlag untouched.1, exec_frame h .pixels untouched.2⟩

/-- The model's record of the outside after an instruction: a sample taken by the key-wait, a byte
by `RND`, nothing by the others. -/
theorem exec_env {i : Instr} {s t : State} (h : exec i s = .next t) :
    ((∃ x, i = .ldVxK x) ∧ t.env = s.env.afterSample) ∨
    ((∃ x nn, i = .rnd x nn) ∧ t.env = s.env.afterRng) ∨
    ((∀ x, i ≠ .ldVxK x) ∧ (∀ x nn, i ≠ .rnd x nn) ∧ t.kp = s.kp ∧ t.env = s.env) := by
  by_cases outside : Part.outside ∈ writtenParts i
  case pos =>
    cases i with
    | ldVxK x =>
      refine .inl ⟨⟨x, rfl⟩, ?_⟩
      obtain ⟨_, e⟩ | ⟨_, e⟩ := exec_ldVxK_cases x s <;> rw [e] at h <;> cases h <;> rfl
    | rnd x nn => cases h; exact .inr (.inl ⟨⟨x, nn, rfl⟩, rfl⟩)
    | _ => simp [writtenParts] at outside
  case neg =>
    have noLatch : Part.keypadLatch ∉ writtenParts i := by
      cases i <;> simp_all [writtenParts]
    refine .inr (.inr ⟨?_, ?_, exec_frame h .keypadLatch noLatch,
      exec_frame h .outside outside⟩)
    · rintro x rfl; simp [writtenParts] at outside
    · rintro x nn rfl; simp [writtenParts] at outside

/-- Settles O60. -/
theorem instructionsUseOnlyTheirInputs : Obligations.InstructionsUseOnlyTheirInputs := by
  intro i s t h
  have hloaded : t.loaded = s.loaded :=
    exec_frame h .loaded (by cases i <;> simp [writtenParts])
  obtain ⟨⟨x, rfl⟩, e⟩ | ⟨⟨x, nn, rfl⟩, e⟩ | ⟨_, _, hkp, e⟩ := exec_env h
  · simp [e, hloaded]
  · have hkp : t.kp = s.kp := exec_frame h .keypadLatch (by simp [writtenParts])
    simp [e, hloaded, hkp]
  · simp [e, hloaded, hkp]

end Sys2Proof.Machine
end

section
/-! Proofs. The step, turn by turn (49_run_loop_and_interfaces.md R190 to R203), the three faults
(60_exceptions.md R220 to R232), and the invariant of reachable states. -/

namespace Sys2Proof.Machine

/-! ### The end of an iteration -/

theorem State.finish_of_halted {s : State} (h : s.run = .halted) : s.finish = s := by
  simp only [State.finish, h]

theorem State.finish_of_clear {s : State} (h : s.df = false) : s.finish = s := by
  cases hr : s.run <;> simp [State.finish, hr, h]

theorem State.finish_of_set {s : State} (hr : s.run ≠ .halted) (hd : s.df = true) :
    s.finish = s.pushDisplay := by
  cases e : s.run <;> simp_all [State.finish]

theorem State.finish_df {s : State} (hr : s.run ≠ .halted) : s.finish.df = false := by
  cases hd : s.df with
  | false => rw [State.finish_of_clear hd, hd]
  | true => rw [State.finish_of_set hr hd, State.pushDisplay_df]

/-- Settles O7. -/
theorem endOfIterationPushesOnce : Obligations.EndOfIterationPushesOnce := by
  intro s
  refine ⟨fun hr hd => ?_, fun _ hd => State.finish_of_clear hd,
    fun hr => State.finish_of_halted hr⟩
  rw [State.finish_of_set (by simp [hr]) hd]
  exact ⟨rfl, rfl, rfl, sameBut_pushDisplay s, rfl⟩

/-! ### What the step is, by the turn and `RUN` -/

theorem step_of_tick {s : State} (h : s.env.turn = .tick) : step s = .next s.takeTurn.tick := by
  rw [step, h]; rfl

theorem step_of_load {s : State} {image : List Byte} (h : s.env.turn = .load image) :
    step s = .next (s.takeTurn.load image) := by
  rw [step, h]; rfl

theorem step_of_reset {s : State} (h : s.env.turn = .reset) :
    step s = .next s.takeTurn.restart := by
  rw [step, h]; rfl

theorem step_of_core {s : State} (h : s.env.turn = .core) : step s = s.takeTurn.coreStep := by
  rw [step, h]; rfl

theorem step_of_awaiting {s : State} (h : s.env.turn = .core) (hr : s.run = .awaitingTrigger) :
    step s = .next s.takeTurn.awaitStart := by
  simp only [step_of_core h, State.coreStep, State.takeTurn_run, hr]

theorem step_of_halted {s : State} (h : s.env.turn = .core) (hr : s.run = .halted) :
    step s = .fault .coreHalted := by
  simp only [step_of_core h, State.coreStep, State.takeTurn_run, hr]

theorem step_of_running {s : State} (h : s.env.turn = .core) (hr : s.run = .running) :
    step s = s.takeTurn.sampleKeypad.executeFetched := by
  simp only [step_of_core h, State.coreStep, State.takeTurn_run, hr]

theorem step_of_invalid {s : State} {r : Reject} (h : s.env.turn = .core) (hr : s.run = .running)
    (hd : decodeWord s.fetch = .error r) :
    step s = .next (s.takeTurn.sampleKeypad.raise .invalidOpcode s.fetch) := by
  rw [step_of_running h hr, State.executeFetched, State.fetch_sampleKeypad,
    State.fetch_takeTurn, hd]
  exact congrArg Host.Outcome.next (State.finish_of_halted rfl)

theorem step_of_valid {s u : State} {i : Instr} (h : s.env.turn = .core) (hr : s.run = .running)
    (hd : decodeWord s.fetch = .ok i) (hu : exec i s.takeTurn.sampleKeypad = .next u) :
    step s = .next u.finish := by
  rw [step_of_running h hr, State.executeFetched, State.fetch_sampleKeypad,
    State.fetch_takeTurn, hd]
  simp only [hu]

/-- Settles O6. -/
theorem stepRunsTheDecodedInstruction : Obligations.StepRunsTheDecodedInstruction := by
  intro s i h hr hd
  obtain ⟨u, hu⟩ := exec_next i s.takeTurn.sampleKeypad
  simp only [step_of_valid h hr hd hu, hu]

/-- Settles O12. -/
theorem haltedCoreTakesNoStep : Obligations.HaltedCoreTakesNoStep :=
  fun _ => step_of_halted

/-- Settles O8: the step is the turn, the sample and the fault, one after another. -/
theorem invalidWordHaltsTheCore : Obligations.InvalidWordHaltsTheCore := by
  intro s r h hr hd
  have frame : SameBut [.keypadLatch, .runLoop, .outside] s
      (s.takeTurn.sampleKeypad.raise .invalidOpcode s.fetch) :=
    (((sameBut_takeTurn s).mono (by decide)).trans
      ((sameBut_sampleKeypad _).mono (by decide))).trans ((sameBut_raise _ _ _).mono (by decide))
  exact ⟨_, step_of_invalid h hr hd, rfl, rfl, rfl, rfl, rfl, rfl, frame⟩

/-! ### `AwaitingTrigger` -/

theorem State.awaitStart_eq (s : State) : s.awaitStart = { s.sampleKeypad with
    run := if s.loaded = true ∧ s.env.sample.getLsbD 10 = true then .running else s.run } := by
  have key : params.startKey.val = 10 := rfl
  simp only [State.awaitStart, State.sampleKeypad_loaded, State.sampleKeypad_kp, key,
    Bool.and_eq_true]
  split <;> rfl

/-- Settles O11. -/
theorem awaitingStepWaitsForLoadedAndKeyA : Obligations.AwaitingStepWaitsForLoadedAndKeyA := by
  intro s h hr
  refine ⟨_, step_of_awaiting h hr, ?_⟩
  rw [State.awaitStart_eq]
  refine ⟨rfl, rfl, ?_, rfl, rfl, rfl, ?_⟩
  · simp [hr]
  · exact (((sameBut_takeTurn s).mono (by decide)).trans
      ((sameBut_sampleKeypad _).mono (by decide))).trans ((sameBut_run _ _).mono (by decide))

/-! ### Ticks -/

theorem toNat_countDown (v : Byte) : (countDown v).toNat = v.toNat - 1 := by
  revert v; decide

/-- Settles O14. -/
theorem tickCountsBothTimersDown : Obligations.TickCountsBothTimersDown := by
  intro s h
  exact ⟨_, step_of_tick h, toNat_countDown _, toNat_countDown _, rfl, rfl,
    ((sameBut_takeTurn s).mono (by decide)).trans ((sameBut_tick _).mono (by decide))⟩

theorem Env.turn_of_cons {e : Env} {t : Turn} {ts : List Turn} (h : e.turns = t :: ts) :
    e.turn = t := by
  simp only [Env.turn, h]

theorem Env.afterTurn_turns_of_cons {e : Env} {t : Turn} {ts : List Turn} (h : e.turns = t :: ts) :
    e.afterTurn.turns = ts := by
  simp only [Env.afterTurn, h]

theorem stepMany_succ {s t : State} (n : Nat) (h : step s = .next t) :
    stepMany (n + 1) s = stepMany n t := by
  rw [stepMany, h]

/-- Settles O15, by induction on the number of ticks. -/
theorem nTicksLeaveTheFlooredDifference : Obligations.NTicksLeaveTheFlooredDifference := by
  intro n
  induction n with
  | zero => exact fun s rest h => ⟨s, rfl, rfl, rfl, h, rfl, .refl _ s⟩
  | succ n ih =>
    intro s rest h
    have turns : s.env.turns = .tick :: (List.replicate n .tick ++ rest) := h
    obtain ⟨u, first, hdt, hst, hpc, henv, frame⟩ :=
      tickCountsBothTimersDown s (Env.turn_of_cons turns)
    obtain ⟨t, others, tdt, tst, tturns, tpc, tframe⟩ :=
      ih u rest (by rw [henv, Env.afterTurn_turns_of_cons turns])
    exact ⟨t, (stepMany_succ n first).trans others, by omega, by omega, tturns, tpc.trans hpc,
      frame.trans tframe⟩

/-! ### A tick beside an instruction -/

theorem State.callTo_tick (s : State) (target op : Word) :
    s.tick.callTo target op = (s.callTo target op).tick := by
  by_cases room : s.sp.val < 16
  · rw [State.callTo_of_room _ _ room, State.callTo_of_room (s := s.tick) _ _ room]; rfl
  · rw [State.callTo_of_full _ _ room, State.callTo_of_full (s := s.tick) _ _ room]; rfl

theorem State.popReturn_tick (s : State) (op : Word) :
    s.tick.popReturn op = (s.popReturn op).tick := by
  by_cases frames : 0 < s.sp.val
  · rw [State.popReturn_of_frames _ frames, State.popReturn_of_frames (s := s.tick) _ frames]; rfl
  · rw [State.popReturn_of_empty _ frames, State.popReturn_of_empty (s := s.tick) _ frames]; rfl

theorem State.storeFrom_tick (s : State) (b : Word) (k : Nat) (vs : List Byte) :
    s.tick.storeFrom b k vs = (s.storeFrom b k vs).tick := by
  induction vs generalizing s k with
  | nil => rfl
  | cons v vs ih => exact ih (s.memWrite b k v) (k + 1)

theorem State.loadRange_tick (s : State) (rs : List Reg) :
    s.tick.loadRange rs = (s.loadRange rs).tick := by
  induction rs generalizing s with
  | nil => rfl
  | cons r rs ih => exact ih (s.setReg r (s.indexRead r.val))

/-- Settles O16: an instruction that accesses no timer neither reads nor writes what a tick
changes. -/
theorem tickCommutesWithUntimedInstructions : Obligations.TickCommutesWithUntimedInstructions := by
  intro i s t untimed h
  cases i with
  | ldVxDt x => exact absurd rfl (untimed x).1
  | ldDt x => exact absurd rfl (untimed x).2.1
  | ldSt x => exact absurd rfl (untimed x).2.2
  | call => cases h; exact congrArg Host.Outcome.next (s.callTo_tick _ _)
  | ret => cases h; exact congrArg Host.Outcome.next (s.popReturn_tick _)
  | ldB | storeRegs =>
    cases h
    exact congrArg (fun u => Host.Outcome.next (State.advance u)) (s.storeFrom_tick _ _ _)
  | loadRegs =>
    cases h
    exact congrArg (fun u => Host.Outcome.next (State.advance u)) (s.loadRange_tick _)
  | ldVxK x =>
    obtain ⟨noKey, e⟩ | ⟨key, e⟩ := exec_ldVxK_cases x s <;> rw [e] at h <;> cases h
    · exact (exec_ldVxK_cases x s.tick).elim (fun c => c.2) (fun c => absurd noKey c.1)
    · exact (exec_ldVxK_cases x s.tick).elim (fun c => absurd c.1 key) (fun c => c.2)
  | cls | jp | jpV0 | seImm | sneImm | seReg | sneReg | skp | sknp | ldImm | addImm | ldReg | orReg
  | andReg | xorReg | addReg | sub | shr | subn | shl | ldI | addI | ldF | rnd | drw =>
    cases h; rfl

/-! ### The loader -/

theorem State.load_of_accepted {s : State} {image : List Byte} (hr : s.run = .awaitingTrigger)
    (hl : s.loaded = false) (fits : image.length ≤ 1024) :
    s.load image = { s with mem := Memory.writeImage s.mem 0x200 image, loaded := true } :=
  if_pos ⟨hr, hl, fits⟩

theorem State.load_of_ignored {s : State} {image : List Byte}
    (h : ¬ (s.run = .awaitingTrigger ∧ s.loaded = false ∧ image.length ≤ 1024)) :
    s.load image = s :=
  if_neg h

theorem sameBut_load (s : State) (image : List Byte) :
    SameBut [.memory, .loaded] s (s.load image) := by
  by_cases accepted : s.run = .awaitingTrigger ∧ s.loaded = false ∧ image.length ≤ 1024
  · obtain ⟨hr, hl, fits⟩ := accepted
    rw [State.load_of_accepted hr hl fits]
    exact sameBut_loadedMemory s _ _
  · rw [State.load_of_ignored accepted]
    exact .refl _ s

/-- Settles O18. -/
theorem loadedImageStandsAtProgramBase : Obligations.LoadedImageStandsAtProgramBase := by
  intro s image h hr hl fits
  have accepted : s.takeTurn.load image = { s.takeTurn with
      mem := Memory.writeImage s.mem 0x200 image, loaded := true } :=
    State.load_of_accepted hr hl fits
  have bytes (a : Nat) : (s.takeTurn.load image).byteAt a =
      if h : 0x200 ≤ a ∧ a < 0x200 + image.length then image[a - 0x200]'(by omega)
        else s.byteAt a := by
    rw [accepted, State.byteAt, Memory.read_writeImage]
    simp [State.byteAt]
  refine ⟨_, step_of_load h, by rw [accepted], by rw [accepted]; rfl, by rw [accepted]; rfl,
    fun k hk => ?_, fun a ha => ?_, ((sameBut_takeTurn s).mono (by decide)).trans
      ((sameBut_load _ image).mono (by decide))⟩
  · rw [bytes, dif_pos (by omega)]
    simp
  · rw [bytes, dif_neg ha]

/-- Settles O19. -/
theorem overlongImageIsNotLoaded : Obligations.OverlongImageIsNotLoaded := by
  intro s image h long
  refine ⟨_, step_of_load h, ?_⟩
  rw [State.load_of_ignored fun accepted => by omega]
  exact ⟨rfl, rfl, sameBut_takeTurn s⟩

/-! ### Reset -/

theorem fontByte?_of_lt {a : Nat} (h : a < 0x50) : ∃ v, fontByte? a = some v := by
  have length : params.font.length = 0x50 := rfl
  exact ⟨_, List.getElem?_eq_getElem (by rw [length]; exact h)⟩

/-- Settles O20. -/
theorem resetFromAnyState : Obligations.ResetFromAnyState := by
  intro s h
  refine ⟨_, step_of_reset h, rfl, rfl, rfl, rfl, gfxCell_clear, fun a ha => ?_, rfl, rfl,
    fun r => ?_, rfl, fun k hk => ?_, rfl, rfl, rfl, rfl, rfl, Env.afterTurn_pushes _⟩
  · obtain ⟨v, hv⟩ := fontByte?_of_lt ha
    simp [hv, State.byteAt, State.restart, State.reset, Memory.read, Memory.find, Memory.unlisted]
  · simp [State.reg, State.restart, State.reset, params]
  · simp [State.restart, State.reset]

end Sys2Proof.Machine
end

section
/-! Proofs. How a running step ends: it takes one of the three faults, or its instruction runs and
no fault is taken (60_exceptions.md R220 to R227); the run loop's transitions (R191). -/

namespace Sys2Proof.Machine

/-! ### The fault the word at `pc` calls for -/

/-- The state in which the word at `pc` is executed: the turn taken, the keypad sampled (R193). -/
def State.sampled (s : State) : State := s.takeTurn.sampleKeypad

theorem State.fetch_sampled (s : State) : s.sampled.fetch = s.fetch := by
  rw [State.sampled, State.fetch_sampleKeypad, State.fetch_takeTurn]

/-- Executing the word at `pc` takes the fault `f` (R220 to R223). -/
def Raises (s : State) : FaultCause → Prop
  | .none => False
  | .invalidOpcode => ∃ r, decodeWord s.fetch = .error r
  | .stackOverflow => s.sp.val = 16 ∧ ∃ nnn, decodeWord s.fetch = .ok (.call nnn)
  | .stackUnderflow => s.sp.val = 0 ∧ decodeWord s.fetch = .ok .ret

/-- A running step takes a fault and does nothing else, or it runs its instruction and no fault is
taken. -/
theorem running_step_cases {s t : State} (hc : s.env.turn = .core) (hr : s.run = .running)
    (h : step s = .next t) :
    (∃ f, Raises s f ∧ t = s.sampled.raise f s.fetch) ∨
    ((∀ f, ¬ Raises s f) ∧ ∃ i u, decodeWord s.fetch = .ok i ∧ exec i s.sampled = .next u ∧
      Part.same s.sampled u .runLoop ∧ t = u.finish) := by
  cases hd : decodeWord s.fetch with
  | error r =>
    rw [step_of_invalid hc hr hd] at h
    cases h
    exact .inl ⟨.invalidOpcode, ⟨r, hd⟩, rfl⟩
  | ok i =>
    obtain ⟨u, hu⟩ := exec_next i s.sampled
    rw [step_of_valid hc hr hd hu] at h
    cases h
    have word : encode i = s.fetch := (encode_of_decodeWord hd).1
    obtain ⟨same, room, frames⟩ | ⟨nnn, rfl, full, rfl⟩ | ⟨rfl, empty, rfl⟩ := exec_fault_cases hu
    · refine .inr ⟨fun f raises => ?_, i, u, rfl, hu, same, rfl⟩
      cases f with
      | none => exact raises
      | invalidOpcode =>
        obtain ⟨r, e⟩ := raises
        simp [hd] at e
      | stackOverflow =>
        obtain ⟨full, nnn, e⟩ := raises
        have : s.sp.val < 16 := room nnn (Except.ok.inj (hd.symm.trans e))
        omega
      | stackUnderflow =>
        obtain ⟨empty, e⟩ := raises
        have : 0 < s.sp.val := frames (Except.ok.inj (hd.symm.trans e))
        omega
    · exact .inl ⟨.stackOverflow, ⟨full, nnn, hd⟩, by rw [word]; exact State.finish_of_halted rfl⟩
    · exact .inl ⟨.stackUnderflow, ⟨empty, hd⟩, by rw [word]; exact State.finish_of_halted rfl⟩

theorem Raises.decode_iff {s : State} {f : FaultCause} (h : Raises s f) :
    (f = .invalidOpcode ↔ ∃ r, decodeWord s.fetch = .error r) ∧
    (f = .stackOverflow ↔ ∃ nnn, decodeWord s.fetch = .ok (.call nnn)) ∧
    (f = .stackUnderflow ↔ decodeWord s.fetch = .ok .ret) := by
  cases f with
  | none => exact h.elim
  | invalidOpcode => obtain ⟨r, e⟩ := h; simp [e]
  | stackOverflow => obtain ⟨_, nnn, e⟩ := h; simp [e]
  | stackUnderflow => obtain ⟨_, e⟩ := h; simp [e]

theorem exists_raises_iff (s : State) : (∃ f, Raises s f) ↔
    (∃ r, decodeWord s.fetch = .error r) ∨
    (∃ nnn, decodeWord s.fetch = .ok (.call nnn) ∧ s.sp.val = 16) ∨
    (decodeWord s.fetch = .ok .ret ∧ s.sp.val = 0) := by
  constructor
  · rintro ⟨f, h⟩
    cases f with
    | none => exact h.elim
    | invalidOpcode => exact .inl h
    | stackOverflow => obtain ⟨full, nnn, e⟩ := h; exact .inr (.inl ⟨nnn, e, full⟩)
    | stackUnderflow => exact .inr (.inr h.symm)
  · rintro (h | ⟨nnn, e, full⟩ | h)
    · exact ⟨.invalidOpcode, h⟩
    · exact ⟨.stackOverflow, full, nnn, e⟩
    · exact ⟨.stackUnderflow, h.symm⟩

/-- Settles O9: the core halts exactly when the word at `pc` calls for a fault. -/
theorem coreHaltsOnlyByItsThreeFaults : Obligations.CoreHaltsOnlyByItsThreeFaults := by
  intro s t hc hr h
  rw [← exists_raises_iff]
  obtain ⟨f, raises, rfl⟩ | ⟨noFault, i, u, _, _, ⟨hrun, _⟩, rfl⟩ := running_step_cases hc hr h
  · exact ⟨iff_of_true rfl ⟨f, raises⟩, fun _ => ⟨rfl, rfl, by simp [State.sampled],
      raises.decode_iff⟩⟩
  · have running : u.finish.run ≠ .halted := by
      rw [State.finish_run, hrun]
      simp [State.sampled, hr]
    exact ⟨iff_of_false running (not_exists.mpr noFault), fun halted => absurd halted running⟩

/-! ### The transitions of the run loop -/

/-- What a step that answers did, turn by turn, with what is known of each: the model's `step_cases`
under names, the running core's step by how it ends. -/
inductive StepCase (s : State) : State → Prop
  | tick (hc : s.env.turn = .tick) : StepCase s s.takeTurn.tick
  | load (image : List Byte) (hc : s.env.turn = .load image) :
      StepCase s (s.takeTurn.load image)
  | reset (hc : s.env.turn = .reset) : StepCase s s.takeTurn.restart
  | awaiting (hc : s.env.turn = .core) (hr : s.run = .awaitingTrigger) :
      StepCase s s.takeTurn.awaitStart
  | faulted (f : FaultCause) (hc : s.env.turn = .core) (hr : s.run = .running)
      (raises : Raises s f) : StepCase s (s.sampled.raise f s.fetch)
  | executed (i : Instr) (u : State) (hc : s.env.turn = .core) (hr : s.run = .running)
      (hd : decodeWord s.fetch = .ok i) (hu : exec i s.sampled = .next u)
      (same : Part.same s.sampled u .runLoop) : StepCase s u.finish

theorem stepCase_of_step {s t : State} (h : step s = .next t) : StepCase s t := by
  have running (hc : s.env.turn = .core) (hr : s.run = .running) : StepCase s t := by
    obtain ⟨f, raises, rfl⟩ | ⟨_, i, u, hd, hu, same, rfl⟩ := running_step_cases hc hr h
    · exact .faulted f hc hr raises
    · exact .executed i u hc hr hd hu same
  obtain ⟨hc, rfl⟩ | ⟨image, hc, rfl⟩ | ⟨hc, rfl⟩ | ⟨hc, hr, rfl⟩ | ⟨hc, hr, _⟩ | ⟨hc, hr, _⟩ :=
    step_cases h
  · exact .tick hc
  · exact .load image hc
  · exact .reset hc
  · exact .awaiting hc hr
  · exact running hc hr
  · exact running hc hr

theorem Raises.ne_none {s : State} {f : FaultCause} (h : Raises s f) : f ≠ .none := by
  rintro rfl
  exact h

/-- Settles O10, turn by turn. -/
theorem runLoopHasExactlyThreeTransitions : Obligations.RunLoopHasExactlyThreeTransitions := by
  intro s t h
  cases stepCase_of_step h with
  | tick => exact .inl rfl
  | load image => exact .inl (sameBut_load s.takeTurn image .runLoop (by decide)).1
  | reset hc => exact .inr (.inl ⟨hc, rfl⟩)
  | awaiting hc hr =>
    rw [State.awaitStart_eq]
    by_cases start : s.loaded = true ∧ s.env.afterTurn.sample.getLsbD 10 = true
    · exact .inr (.inr (.inl ⟨hc, hr, if_pos start, start⟩))
    · exact .inl (if_neg start)
  | faulted f hc hr raises => exact .inr (.inr (.inr ⟨hc, hr, rfl, raises.ne_none⟩))
  | executed i u _ _ _ _ same => exact .inl (by rw [State.finish_run, same.1]; rfl)

/-- Settles O13: in `Halted` a load is ignored, and the core takes no step. -/
theorem onlyResetLeavesHalted : Obligations.OnlyResetLeavesHalted := by
  intro s t halted notReset h
  cases stepCase_of_step h with
  | tick hc =>
    exact ⟨halted, rfl, ((sameBut_takeTurn s).mono (by decide)).trans
      ((sameBut_tick _).mono (by decide)), fun notTick => absurd hc notTick⟩
  | load image =>
    rw [State.load_of_ignored fun accepted => by simp [halted] at accepted]
    exact ⟨halted, rfl, (sameBut_takeTurn s).mono (by decide), fun _ => ⟨rfl, rfl⟩⟩
  | reset hc => exact absurd hc notReset
  | awaiting _ hr | faulted _ _ hr | executed _ _ _ hr => simp [halted] at hr

/-! ### Pushes -/

theorem exec_of_graphics {i : Instr} {s t : State} (h : exec i s = .next t)
    (graphics : i = .cls ∨ ∃ x y n, i = .drw x y n) :
    t.df = true ∧ t.run = s.run ∧ t.env = s.env := by
  obtain rfl | ⟨x, y, n, rfl⟩ := graphics <;> cases h <;> exact ⟨rfl, rfl, rfl⟩

/-- Settles O17: `DF` is set after the instruction exactly when it is `CLS` or `DRW`. -/
theorem onePushPerClearOrDraw : Obligations.OnePushPerClearOrDraw := by
  intro s t i hc hr hd hi h
  obtain ⟨u, hu⟩ := exec_next i s.sampled
  rw [step_of_valid hc hr hi hu] at h
  cases h
  by_cases graphics : i = .cls ∨ ∃ x y n, i = .drw x y n
  · obtain ⟨hdf, hrun, henv⟩ := exec_of_graphics hu graphics
    have running : u.run ≠ .halted := by rw [hrun]; simp [State.sampled, hr]
    rw [State.finish_of_set running hdf]
    exact ⟨rfl, fun _ => by simp [henv, State.sampled], fun no => absurd graphics no⟩
  · have keeps : u.df = s.df ∧ _ := onlyClearAndDrawTouchGraphics i s.sampled u hu
      (fun e => graphics (.inl e)) (fun x y n e => graphics (.inr ⟨x, y, n, e⟩))
    have clear : u.df = false := keeps.1.trans hd
    obtain ⟨_, _, pushes, _⟩ := instructionsUseOnlyTheirInputs i s.sampled u hu
    rw [State.finish_of_clear clear]
    exact ⟨clear, fun yes => absurd yes graphics, fun _ => by simp [pushes, State.sampled]⟩

/-! ### Timers -/

theorem toNat_countDown_le (v : Byte) : (countDown v).toNat ≤ v.toNat := by
  rw [toNat_countDown]
  exact Nat.sub_le _ _

/-- Settles O59, turn by turn; an executed instruction writes a timer only if it is that timer's
own. -/
theorem timersRiseOnlyByTheirInstructions : Obligations.TimersRiseOnlyByTheirInstructions := by
  intro s t h
  cases stepCase_of_step h with
  | tick => exact ⟨fun _ => toNat_countDown_le _, fun _ => toNat_countDown_le _⟩
  | load image =>
    have frame := sameBut_load s.takeTurn image
    have hdt := frame .delayTimer (by decide)
    have hst := frame .soundTimer (by decide)
    exact ⟨fun _ => (congrArg BitVec.toNat hdt).le, fun _ => (congrArg BitVec.toNat hst).le⟩
  | reset => exact ⟨fun _ => Nat.zero_le _, fun _ => Nat.zero_le _⟩
  | awaiting =>
    rw [State.awaitStart_eq]
    exact ⟨fun _ => le_rfl, fun _ => le_rfl⟩
  | faulted => exact ⟨fun _ => le_rfl, fun _ => le_rfl⟩
  | executed i u hc hr hd hu =>
    rw [State.finish_dt, State.finish_st]
    refine ⟨fun notLdDt => ?_, fun notLdSt => ?_⟩
    · have hdt : u.dt = s.dt := exec_frame hu .delayTimer fun mem => by
        obtain ⟨x, rfl⟩ := delayTimer_mem_writtenParts mem
        exact notLdDt x hc hr hd
      rw [hdt]
    · have hst : u.st = s.st := exec_frame hu .soundTimer fun mem => by
        obtain ⟨x, rfl⟩ := soundTimer_mem_writtenParts mem
        exact notLdSt x hc hr hd
      rw [hst]

end Sys2Proof.Machine
end

section
/-! Proofs. The invariant of reachable states (`Inv`): it holds after reset, and every step keeps
it, turn by turn. -/

namespace Sys2Proof.Machine

/-! ### The invariant, by the state of the run loop -/

theorem Inv.of_awaiting {s : State} (hr : s.run = .awaitingTrigger) (hf : s.fault = .none)
    (hi : s.faultInfo = 0) (hd : s.df = false) (hm : Memory.wf s.mem = true) (reset : AsReset s) :
    Inv s where
  memCanonical := hm
  haltedIffFault := by simp [hr, hf]
  drawFlagClear := hd
  infoClear := fun _ => hi
  infoIsFaultingWord := by simp [hr]
  causeFits := by rw [hf]; trivial
  startedLoaded := fun h => absurd hr h
  awaitingAsReset := fun _ => reset

theorem Inv.of_running {s : State} (hr : s.run = .running) (hf : s.fault = .none)
    (hi : s.faultInfo = 0) (hd : s.df = false) (hm : Memory.wf s.mem = true)
    (hl : s.loaded = true) : Inv s where
  memCanonical := hm
  haltedIffFault := by simp [hr, hf]
  drawFlagClear := hd
  infoClear := fun _ => hi
  infoIsFaultingWord := by simp [hr]
  causeFits := by rw [hf]; trivial
  startedLoaded := fun _ => hl
  awaitingAsReset := by simp [hr]

theorem Inv.fault_of_not_halted {s : State} (h : Inv s) (hr : s.run ≠ .halted) :
    s.fault = .none :=
  Decidable.not_not.mp fun hf => hr (h.haltedIffFault.mpr hf)

/-! ### What keeps it -/

theorem Inv.takeTurn {s : State} (h : Inv s) : Inv s.takeTurn where
  memCanonical := h.memCanonical
  haltedIffFault := h.haltedIffFault
  drawFlagClear := h.drawFlagClear
  infoClear := h.infoClear
  infoIsFaultingWord := by simpa using h.infoIsFaultingWord
  causeFits := h.causeFits
  startedLoaded := h.startedLoaded
  awaitingAsReset := h.awaitingAsReset

theorem Inv.sampleKeypad {s : State} (h : Inv s) : Inv s.sampleKeypad where
  memCanonical := h.memCanonical
  haltedIffFault := h.haltedIffFault
  drawFlagClear := h.drawFlagClear
  infoClear := h.infoClear
  infoIsFaultingWord := by simpa using h.infoIsFaultingWord
  causeFits := h.causeFits
  startedLoaded := h.startedLoaded
  awaitingAsReset := h.awaitingAsReset

/-- A tick in `AwaitingTrigger` finds both timers at 0 and leaves them there. -/
theorem Inv.tick {s : State} (h : Inv s) : Inv s.tick where
  memCanonical := h.memCanonical
  haltedIffFault := h.haltedIffFault
  drawFlagClear := h.drawFlagClear
  infoClear := h.infoClear
  infoIsFaultingWord := by simpa using h.infoIsFaultingWord
  causeFits := h.causeFits
  startedLoaded := h.startedLoaded
  awaitingAsReset := fun hr => by
    obtain ⟨hx, hpc, hi, hsp, hstack, hdt, hst, hgfx⟩ := h.awaitingAsReset hr
    exact ⟨hx, hpc, hi, hsp, hstack, by rw [State.tick_dt, hdt]; rfl,
      by rw [State.tick_st, hst]; rfl, hgfx⟩

theorem Inv.load {s : State} (h : Inv s) (image : List Byte) : Inv (s.load image) := by
  by_cases accepted : s.run = .awaitingTrigger ∧ s.loaded = false ∧ image.length ≤ 1024
  · obtain ⟨hr, hl, fits⟩ := accepted
    have hf : s.fault = .none := h.fault_of_not_halted (by simp [hr])
    rw [State.load_of_accepted hr hl fits]
    exact .of_awaiting hr hf (h.infoClear hf) h.drawFlagClear
      (Memory.wf_writeImage image (by omega) h.memCanonical) (h.awaitingAsReset hr)
  · rw [State.load_of_ignored accepted]
    exact h

theorem inv_restart (s : State) : Inv s.restart :=
  .of_awaiting rfl rfl rfl rfl rfl ⟨rfl, rfl, rfl, rfl, rfl, rfl, rfl, rfl⟩

theorem Inv.awaitStart {s : State} (h : Inv s) (hr : s.run = .awaitingTrigger) :
    Inv s.awaitStart := by
  have hf : s.fault = .none := h.fault_of_not_halted (by simp [hr])
  rw [State.awaitStart_eq]
  by_cases start : s.loaded = true ∧ s.env.sample.getLsbD 10 = true
  · exact .of_running (if_pos start) hf (h.infoClear hf) h.drawFlagClear h.memCanonical start.1
  · exact .of_awaiting ((if_neg start).trans hr) hf (h.infoClear hf) h.drawFlagClear
      h.memCanonical (h.awaitingAsReset hr)

theorem Raises.faultFits {s : State} {f : FaultCause} (h : Raises s f) :
    FaultFits (s.sampled.raise f s.fetch) f := by
  cases f with
  | none => trivial
  | invalidOpcode => exact h
  | stackOverflow =>
    obtain ⟨full, nnn, hd⟩ := h
    exact ⟨full, nnn, (encode_of_decodeWord hd).1.symm⟩
  | stackUnderflow => exact ⟨h.1, (encode_of_decodeWord h.2).1.symm⟩

/-- A fault leaves `pc` and memory, so `FAULT_INFO` is still the word at `pc` after it. -/
theorem Inv.raise {s : State} (h : Inv s) (hr : s.run = .running) {f : FaultCause}
    (raises : Raises s f) : Inv (s.sampled.raise f s.fetch) where
  memCanonical := h.memCanonical
  haltedIffFault := iff_of_true rfl raises.ne_none
  drawFlagClear := h.drawFlagClear
  infoClear := fun hf => absurd hf raises.ne_none
  infoIsFaultingWord := fun _ => by rw [State.fetch_raise, State.fetch_sampled]; rfl
  causeFits := raises.faultFits
  startedLoaded := fun _ => h.startedLoaded (by simp [hr])
  awaitingAsReset := nofun

theorem exec_keeps_wf {i : Instr} {s t : State} (h : exec i s = .next t)
    (w : Memory.wf s.mem = true) : Memory.wf t.mem = true := by
  cases i with
  | ldB | storeRegs => cases h; exact State.wf_storeFrom _ _ _ w
  | loadRegs => cases h; simpa using w
  | call nnn =>
    rw [exec_call] at h
    cases h
    obtain ⟨_, e⟩ | ⟨_, e⟩ := s.callTo_cases (addrWord nnn) (encode (.call nnn)) <;> rw [e] <;>
      exact w
  | ret =>
    rw [exec_ret] at h
    cases h
    obtain ⟨_, e⟩ | ⟨_, e⟩ := s.popReturn_cases (encode .ret) <;> rw [e] <;> exact w
  | ldVxK x =>
    obtain ⟨_, e⟩ | ⟨_, e⟩ := exec_ldVxK_cases x s <;> rw [e] at h <;> cases h <;> exact w
  | cls | jp | jpV0 | seImm | sneImm | seReg | sneReg | skp | sknp | ldImm | addImm | ldReg | orReg
  | andReg | xorReg | addReg | sub | shr | subn | shl | ldI | addI | ldF | rnd | drw | ldVxDt | ldDt
  | ldSt => cases h; exact w

theorem Inv.exec_finish {s u : State} {i : Instr} (h : Inv s) (hr : s.run = .running)
    (hu : exec i s = .next u) (same : Part.same s u .runLoop) : Inv u.finish := by
  obtain ⟨urun, ufault, uinfo⟩ := same
  have hf : s.fault = .none := h.fault_of_not_halted (by simp [hr])
  have hl : u.loaded = s.loaded := (instructionsUseOnlyTheirInputs i s u hu).1
  refine .of_running ?_ ?_ ?_ (State.finish_df (by simp [urun, hr])) ?_ ?_
  · rw [State.finish_run, urun, hr]
  · rw [State.finish_fault, ufault, hf]
  · rw [State.finish_faultInfo, uinfo, h.infoClear hf]
  · rw [State.finish_mem]
    exact exec_keeps_wf hu h.memCanonical
  · rw [State.finish_loaded, hl]
    exact h.startedLoaded (by simp [hr])

/-- Settles O22, turn by turn. -/
theorem everyStepKeepsTheReachableInvariant : Obligations.EveryStepKeepsTheReachableInvariant := by
  intro s t h hstep
  cases stepCase_of_step hstep with
  | tick => exact h.takeTurn.tick
  | load image => exact h.takeTurn.load image
  | reset => exact inv_restart _
  | awaiting _ hr => exact h.takeTurn.awaitStart hr
  | faulted f _ hr raises => exact h.raise hr raises
  | executed i u _ hr _ hu same => exact h.takeTurn.sampleKeypad.exec_finish hr hu same

/-- Settles O21. -/
theorem reachableInvariantHoldsAtReset : Obligations.ReachableInvariantHoldsAtReset :=
  .of_awaiting rfl rfl rfl rfl rfl ⟨rfl, rfl, rfl, rfl, rfl, rfl, rfl, rfl⟩

end Sys2Proof.Machine
end

section
/-! Proofs. Memory and fetch (20_memory.md), and the control-flow instructions
(40_control_flow.md). -/

namespace Sys2Proof.Machine

/-! ### Memory and fetch -/

/-- Settles O23. -/
theorem storeIsReadBackAndNothingElseChanges :
    Obligations.StoreIsReadBackAndNothingElseChanges :=
  State.byteAt_memWrite

theorem State.toNat_fetch (s : State) : s.fetch.toNat =
    (s.byteAt (byteAddr s.pc 0)).toNat * 256 + (s.byteAt (byteAddr s.pc 1)).toNat :=
  toNat_append_lt _ _

/-- Settles O24. -/
theorem fetchIsBigEndianAndWraps : Obligations.FetchIsBigEndianAndWraps := by
  refine fun s => ⟨s.toNat_fetch, fun a ha => ?_⟩
  have wraps (k : Nat) : byteAddr a k = byteAddr s.pc k := by
    unfold byteAddr; omega
  simp only [State.fetch, State.memRead, State.setPc_pc, State.byteAt_setPc, wraps]

theorem byteAt_of_exec_storeRegs {s t : State} {x : Reg} (h : exec (.storeRegs x) s = .next t)
    {r : Reg} (hr : r ≤ x) : t.byteAt (byteAddr s.i r.val) = s.reg r := by
  cases h
  have length : ((regRange x).map s.reg).length = x.val + 1 := by
    rw [List.length_map, length_regRange]
  have hlt : r.val < ((regRange x).map s.reg).length := by
    rw [length]; exact Nat.lt_succ_of_le hr
  have stored := State.byteAt_storeFrom_at s s.i 0 ((regRange x).map s.reg) r.val hlt (by omega)
  rw [Nat.zero_add, List.getElem_map, getElem_regRange x r hr] at stored
  exact stored

/-- Settles O25. -/
theorem storeOverNextInstructionIsFetched : Obligations.StoreOverNextInstructionIsFetched := by
  intro s t x hi hx h
  have hpc : t.pc = s.i := by
    rw [exec_storeRegs] at h
    cases h
    simp [hi]
  have high : t.byteAt (byteAddr s.i 0) = s.reg 0 :=
    byteAt_of_exec_storeRegs h (r := 0) (Fin.zero_le x)
  have low : t.byteAt (byteAddr s.i 1) = s.reg 1 := byteAt_of_exec_storeRegs h (r := 1) hx
  rw [State.fetch, State.memRead, State.memRead, hpc, high, low]

/-! ### Jumps -/

theorem toNat_addrWord (nnn : Addr12) : (addrWord nnn).toNat = nnn.toNat := by
  have := nnn.isLt
  rw [addrWord, BitVec.toNat_setWidth]
  omega

theorem toNat_byteWord (v : Byte) : (byteWord v).toNat = v.toNat := by
  have := v.isLt
  rw [byteWord, BitVec.toNat_setWidth]
  omega

theorem toNat_jpV0_target (nnn : Addr12) (v : Byte) :
    (addrWord nnn + byteWord v).toNat = nnn.toNat + v.toNat := by
  have := nnn.isLt
  have := v.isLt
  rw [BitVec.toNat_add, toNat_addrWord, toNat_byteWord]
  omega

/-- Settles O26. -/
theorem jumpSetsPc : Obligations.JumpSetsPc :=
  fun s nnn => ⟨⟨encode_and_mask (.jp nnn), toNat_wordNNN _ _⟩, _, exec_jp nnn s,
    toNat_addrWord nnn, exec_frame (exec_jp nnn s)⟩

/-- Settles O27. -/
theorem jumpWithOffsetAddsV0 : Obligations.JumpWithOffsetAddsV0 :=
  fun s nnn => ⟨_, exec_jpV0 nnn s, toNat_jpV0_target nnn _, exec_frame (exec_jpV0 nnn s)⟩

/-! ### Call and return -/

/-- Settles O28. -/
theorem callPushesItsOwnAddressOrOverflows : Obligations.CallPushesItsOwnAddressOrOverflows := by
  intro s nnn
  refine ⟨⟨encode_and_mask (.call nnn), toNat_wordNNN _ _⟩,
    fun room => ?pushes, fun full => ?overflows⟩
  case pushes =>
    refine ⟨_, (exec_call nnn s).trans (congrArg _ (State.callTo_of_room _ _ room)),
      toNat_addrWord nnn, rfl, fun k hk => ?_,
      (sameBut_callStack s _ _).trans (sameBut_setPc _ _ _)⟩
    rw [State.setPc_stack, Vector.getElem_set]
    simp only [eq_comm]
  case overflows =>
    exact ⟨_, (exec_call nnn s).trans (congrArg _ (State.callTo_of_full _ _ (by omega))),
      rfl, rfl, rfl, rfl, sameBut_raise _ _ _⟩

/-- Settles O29. -/
theorem returnPopsOrUnderflows : Obligations.ReturnPopsOrUnderflows := by
  intro s
  refine ⟨fun k hk hsp => ?pops, fun empty => ?underflows⟩
  case pops =>
    have below : s.sp.val - 1 = k := by omega
    refine ⟨_, (exec_ret s).trans (congrArg _ (State.popReturn_of_frames _ (by omega))),
      below, rfl, ?_, (sameBut_callStack s _ _).trans (sameBut_setPc _ _ _)⟩
    simp only [State.setPc_pc, below, BitVec.toNat_add]
    rfl
  case underflows =>
    exact ⟨_, (exec_ret s).trans (congrArg _ (State.popReturn_of_empty _ (by omega))),
      rfl, rfl, rfl, rfl, sameBut_raise _ _ _⟩

/-- Settles O30. -/
theorem callThenReturnContinuesAfterTheCall :
    Obligations.CallThenReturnContinuesAfterTheCall := by
  intro s t u nnn room h hsp hstack
  rw [exec_call, State.callTo_of_room _ _ room] at h
  cases h
  have frames : 0 < u.sp.val := by rw [hsp]; exact Nat.succ_pos _
  have below : u.sp.val - 1 = s.sp.val := by rw [hsp]; exact Nat.add_sub_cancel _ _
  refine ⟨_, (exec_ret u).trans (congrArg _ (State.popReturn_of_frames _ frames)), ?_,
    Fin.ext below⟩
  simp only [State.setPc_pc, State.setPc_stack, below, hstack, Vector.getElem_set_self]

/-! ### Skips -/

theorem State.toNat_skipIf_pc (s : State) (c : Bool) :
    (s.skipIf c).pc.toNat = (s.pc.toNat + if c then 4 else 2) % 65536 := by
  cases c <;> simp [BitVec.toNat_add]

theorem encodedUnder_wordXNN {i : Instr} {f : BitVec 4} {mask val : Word} {x : Reg} {nn : Byte}
    (word : encode i = wordXNN f x nn) (masked : encode i &&& mask = val)
    (hf : f.toNat * 4096 = val.toNat) :
    EncodedUnder i mask val (x.val * 256 + nn.toNat) :=
  ⟨masked, by rw [word, toNat_wordXNN, hf, Nat.add_assoc]⟩

theorem encodedUnder_wordXYN {i : Instr} {f : BitVec 4} {mask val : Word} {x y : Reg} {n : Nat}
    (word : encode i = wordXYN f x y (BitVec.ofNat 4 n)) (masked : encode i &&& mask = val)
    (hf : f.toNat * 4096 = val.toNat) :
    EncodedUnder i mask val (x.val * 256 + y.val * 16 + n % 16) :=
  ⟨masked, by rw [word, toNat_wordXYN, hf, BitVec.toNat_ofNat, Nat.add_assoc, Nat.add_assoc,
    ← Nat.add_assoc (x.val * 256)]⟩

/-- Settles O31. -/
theorem skipsOnAByte : Obligations.SkipsOnAByte := by
  intro s x nn
  refine ⟨encodedUnder_wordXNN rfl (encode_and_mask (.seImm x nn)) rfl,
    encodedUnder_wordXNN rfl (encode_and_mask (.sneImm x nn)) rfl,
    ⟨_, exec_seImm x nn s, ?_, exec_frame (exec_seImm x nn s)⟩,
    ⟨_, exec_sneImm x nn s, ?_, exec_frame (exec_sneImm x nn s)⟩⟩
  · rw [State.toNat_skipIf_pc]; simp
  · rw [State.toNat_skipIf_pc]; simp

/-- Settles O32. -/
theorem skipsOnTwoRegisters : Obligations.SkipsOnTwoRegisters := by
  intro s x y n
  refine ⟨encodedUnder_wordXYN rfl (encode_and_mask (.seReg x y n)) rfl,
    encodedUnder_wordXYN rfl (encode_and_mask (.sneReg x y n)) rfl,
    ⟨_, exec_seReg x y n s, ?_, exec_frame (exec_seReg x y n s)⟩,
    ⟨_, exec_sneReg x y n s, ?_, exec_frame (exec_sneReg x y n s)⟩⟩
  · rw [State.toNat_skipIf_pc]; simp
  · rw [State.toNat_skipIf_pc]; simp

/-! ### `pc` after every instruction -/

/-- Settles O33. -/
theorem everyInstructionsNewPc : Obligations.EveryInstructionsNewPc := by
  intro i s t h
  cases i with
  | jp nnn => cases h; exact toNat_addrWord nnn
  | jpV0 nnn => cases h; exact toNat_jpV0_target nnn _
  | call nnn =>
    rw [exec_call] at h
    cases h
    refine ⟨fun room => ?_, fun full => ?_⟩
    · rw [State.callTo_of_room _ _ room]; exact toNat_addrWord nnn
    · rw [State.callTo_of_full _ _ (by omega)]; rfl
  | ret =>
    rw [exec_ret] at h
    cases h
    refine ⟨fun k hk hsp => ?_, fun empty => ?_⟩
    · rw [State.popReturn_of_frames _ (by omega)]
      simp only [State.setPc_pc, show s.sp.val - 1 = k by omega]
    · rw [State.popReturn_of_empty _ (by omega)]; rfl
  | ldVxK x =>
    obtain ⟨noKey, e⟩ | ⟨key, e⟩ := exec_ldVxK_cases x s <;> rw [e] at h <;> cases h
    · exact (if_pos noKey).symm
    · exact (if_neg key).symm
  | seImm | sneImm | seReg | sneReg => cases h; simp
  | skp | sknp =>
    cases h
    exact ite_eq_or_eq _ _ _
  | ldB | storeRegs => cases h; exact congrArg (· + 2) (s.storeFrom_pc _ _ _)
  | loadRegs => cases h; exact congrArg (· + 2) (s.loadRange_pc _)
  | cls | ldImm | addImm | ldReg | orReg | andReg | xorReg | addReg | sub | shr | subn | shl | ldI
  | addI | ldF | rnd | drw | ldVxDt | ldDt | ldSt => cases h; rfl

end Sys2Proof.Machine
end

section
/-! Proofs. Load, arithmetic and logic (41_load_alu.md), the index pointer and memory
(42_index_memory.md), graphics (43_graphics.md), keypad, timers and random (44_keypad_timer_random.md):
what each instruction writes; what it leaves unchanged is `exec_frame` and `exec_reg`. -/

namespace Sys2Proof.Machine

/-! ### Load, arithmetic, logic -/

/-- An instruction whose only written register is `x` leaves the others. -/
theorem sameRegsBut_of_exec {i : Instr} {s t : State} {x : Reg} (h : exec i s = .next t)
    (only : writtenRegs i = [x]) : SameRegsBut x s t :=
  fun q hq => exec_reg h (by rw [only]; simpa using hq)

theorem State.reg_setReg_advance (s : State) (x : Reg) (v : Byte) :
    (s.setReg x v).advance.reg x = v := by
  rw [State.reg_advance, State.reg_setReg_self]

/-- Settles O34. -/
theorem loadAndAddOfAByte : Obligations.LoadAndAddOfAByte := by
  intro s x nn
  have load := exec_ldImm x nn s
  have add := exec_addImm x nn s
  exact ⟨encodedUnder_wordXNN rfl (encode_and_mask (.ldImm x nn)) rfl,
    encodedUnder_wordXNN rfl (encode_and_mask (.addImm x nn)) rfl,
    ⟨_, load, State.reg_setReg_advance _ _ _, rfl, sameRegsBut_of_exec load rfl, exec_frame load⟩,
    ⟨_, add, by rw [State.reg_setReg_advance, toNat_sumByte], rfl, sameRegsBut_of_exec add rfl,
      exec_frame add⟩⟩

/-- Settles O35. -/
theorem moveAndLogicWriteVxOnly : Obligations.MoveAndLogicWriteVxOnly := by
  intro s x y
  have move := exec_ldReg x y s
  have orNext := exec_orReg x y s
  have andNext := exec_andReg x y s
  have xorNext := exec_xorReg x y s
  refine ⟨⟨_, move, State.reg_setReg_advance _ _ _, rfl, sameRegsBut_of_exec move rfl,
      exec_frame move⟩,
    ⟨_, orNext, fun k => ?_, rfl, sameRegsBut_of_exec orNext rfl, exec_frame orNext⟩,
    ⟨_, andNext, fun k => ?_, rfl, sameRegsBut_of_exec andNext rfl, exec_frame andNext⟩,
    ⟨_, xorNext, fun k => ?_, rfl, sameRegsBut_of_exec xorNext rfl, exec_frame xorNext⟩⟩
  · rw [State.reg_setReg_advance, BitVec.getLsbD_or]
  · rw [State.reg_setReg_advance, BitVec.getLsbD_and]
  · rw [State.reg_setReg_advance, BitVec.getLsbD_xor]

/-- Settles O37: the flag of a flagged write remains in VF, whatever the result register. -/
theorem flagRemainsWhenResultRegisterIsVf : Obligations.FlagRemainsWhenResultRegisterIsVf := by
  rintro s y _ _ rfl rfl
  refine ⟨⟨_, exec_addReg 15 y s, ?_⟩, ⟨_, exec_sub 15 y s, ?_⟩, ⟨_, exec_subn 15 y s, ?_⟩,
    ⟨_, exec_shr 15 y s, ?_⟩, ⟨_, exec_shl 15 y s, ?_⟩⟩
  · rw [State.reg_writeFlagged_flag, carryFlag_eq_ite]
  · rw [State.reg_writeFlagged_flag, notBorrowFlag_eq_ite]
  · rw [State.reg_writeFlagged_flag, notBorrowFlag_eq_ite]
  · rw [State.reg_writeFlagged_flag, toNat_lowBitFlag]
  · rw [State.reg_writeFlagged_flag, toNat_highBitFlag]

/-- Settles O38. -/
theorem flagInstructionsFrame : Obligations.FlagInstructionsFrame := by
  intro i s x y hi
  obtain ⟨t, h⟩ := exec_next i s
  have others (q : Reg) (hx : q ≠ x) (hf : q ≠ 15) : t.reg q = s.reg q := by
    refine exec_reg h ?_
    fin_cases hi <;> simp [writtenRegs, hx, hf]
  refine ⟨t, h, ?_, ?_, others⟩
  · fin_cases hi <;> cases h <;> rfl
  · fin_cases hi <;> exact exec_frame h

/-- Settles O39. -/
theorem vfAliasMattersOnlyForVf : Obligations.VfAliasMattersOnlyForVf := by
  intro s x result flag
  refine ⟨fun hx => ?_, State.reg_setReg_self _ _ _, State.reg_setReg_self _ _ _⟩
  have distinct : x.val ≠ flagReg.val := fun e => hx (Fin.ext e)
  exact congrArg (fun regs => { s with x := regs }) (Vector.set_comm _ _ distinct)

/-! ### The index pointer -/

/-- Settles O40. -/
theorem loadIndexSetsI : Obligations.LoadIndexSetsI :=
  fun s nnn => ⟨⟨encode_and_mask (.ldI nnn), toNat_wordNNN _ _⟩, _, exec_ldI nnn s,
    toNat_addrWord nnn, rfl, exec_frame (exec_ldI nnn s)⟩

/-- Settles O41. -/
theorem addIndexAndGlyphAddress : Obligations.AddIndexAndGlyphAddress := by
  refine fun s x => ⟨⟨_, exec_addI x s, ?_, rfl, exec_frame (exec_addI x s)⟩,
    ⟨_, exec_ldF x s, ?_, rfl, exec_frame (exec_ldF x s)⟩⟩
  · rw [State.advance_i, State.setI_i, BitVec.toNat_add, toNat_byteWord]
  · have small := (s.reg x).isLt
    rw [State.advance_i, State.setI_i, BitVec.toNat_mul, toNat_byteWord]
    exact Nat.mod_eq_of_lt (by simp; omega)

/-! ### Memory -/

theorem toNat_decimalDigits (v : Byte) :
    (decimalDigits v).map BitVec.toNat = [v.toNat / 100, v.toNat / 10 % 10, v.toNat % 10] := by
  revert v; decide

/-- Settles O42. -/
theorem decimalStoreWritesThreeDigits : Obligations.DecimalStoreWritesThreeDigits := by
  intro s x
  have digits := toNat_decimalDigits (s.reg x)
  simp only [decimalDigits, List.map_cons, List.map_nil, List.cons.injEq, and_true] at digits
  obtain ⟨hundreds, tens, units⟩ := digits
  have length : (decimalDigits (s.reg x)).length = 3 := rfl
  have stored := s.byteAt_storeFrom_at s.i 0 (decimalDigits (s.reg x))
  refine ⟨_, exec_ldB x s, ?_, ?_, ?_, fun a ha => ?_, ?_, exec_frame (exec_ldB x s)⟩
  · exact (congrArg BitVec.toNat (stored 0 (by simp [length]) (by simp [length]))).trans hundreds
  · exact (congrArg BitVec.toNat (stored 1 (by simp [length]) (by simp [length]))).trans tens
  · exact (congrArg BitVec.toNat (stored 2 (by simp [length]) (by simp [length]))).trans units
  · exact s.byteAt_storeFrom_other s.i 0 _ a fun j hj e => ha ⟨j, hj, by rwa [Nat.zero_add] at e⟩
  · exact congrArg (· + 2) (s.storeFrom_pc _ _ _)

/-- Settles O43. -/
theorem registerDumpStoresV0ToVx : Obligations.RegisterDumpStoresV0ToVx := by
  intro s x
  have dump := exec_storeRegs x s
  refine ⟨_, dump, fun r hr => byteAt_of_exec_storeRegs dump hr, fun a ha => ?_, ?_,
    exec_frame dump⟩
  · refine s.byteAt_storeFrom_other s.i 0 _ a fun j hj e => ha ⟨j, ?_, by rwa [Nat.zero_add] at e⟩
    rw [List.length_map, length_regRange] at hj
    exact Nat.le_of_lt_succ hj
  · exact congrArg (· + 2) (s.storeFrom_pc _ _ _)

/-- Settles O44. -/
theorem registerLoadFillsV0ToVx : Obligations.RegisterLoadFillsV0ToVx := by
  refine fun s x => ⟨_, exec_loadRegs x s, fun r => ?_, ?_, exec_frame (exec_loadRegs x s)⟩
  · rw [State.reg_advance, State.reg_loadRange]
    simp only [mem_regRange]
    rfl
  · exact congrArg (· + 2) (s.loadRange_pc _)

/-! ### Graphics -/

/-- Settles O45. -/
theorem clearScreenClearsEveryCell : Obligations.ClearScreenClearsEveryCell :=
  fun s => ⟨⟨encode_and_mask .cls, rfl⟩, _, exec_cls s, gfxCell_clear, rfl, rfl,
    exec_frame (exec_cls s)⟩

theorem State.mem_drawnCells (s : State) (x y : Reg) (n : Nat) (k : Fin 2048) :
    k ∈ s.drawnCells x y n ↔ SpriteCovers s x y n k := by
  simp [State.drawnCells, mem_spriteCells, State.indexBytes, SpriteCovers, State.indexRead]

/-- Settles O46: the cells a draw toggles are those its sprite covers. -/
theorem drawFlipsExactlyTheSpritesCells : Obligations.DrawFlipsExactlyTheSpritesCells := by
  intro s x y n hn
  have hn : n ≤ 32 := by omega
  obtain ⟨t, h⟩ := exec_next (.drw x y n) s
  have cell (k) : gfxCell t.gfx k = (gfxCell s.gfx k ^^ decide (k ∈ s.drawnCells x y n)) :=
    gfxCell_of_exec_drw hn h k
  have flag := flag_of_exec_drw hn h
  have hit : ((s.drawnCells x y n).any fun k => gfxCell s.gfx k) = true ↔
      ∃ k, SpriteCovers s x y n k ∧ gfxCell s.gfx k = true := by
    simp only [List.any_eq_true, State.mem_drawnCells]
  refine ⟨t, h, fun k covered => ?_, fun k outside => ?_, fun collision => ?_,
    fun noCollision => ?_, ?_, ?_, sameRegsBut_of_exec h rfl, exec_frame h⟩
  · rw [cell, decide_eq_true ((s.mem_drawnCells x y n k).mpr covered), Bool.xor_true]
  · rw [cell, decide_eq_false (mt (s.mem_drawnCells x y n k).mp outside), Bool.xor_false]
  · rw [flag, hit.mpr collision]; rfl
  · rw [flag, Bool.eq_false_iff.mpr (mt hit.mp noCollision)]; rfl
  · cases h; rfl
  · cases h; rfl

/-! ### Keypad, timers, random -/

/-- Settles O48. -/
theorem randomIsMaskedIntoVx : Obligations.RandomIsMaskedIntoVx := by
  intro s x nn
  have random := exec_rnd x nn s
  exact ⟨_, random, State.reg_setReg_advance _ _ _, rfl, rfl, sameRegsBut_of_exec random rfl,
    exec_frame random⟩

theorem keyDown_iff (kp : Word) (v : Byte) :
    keyDown kp v = true ↔ v.toNat ≤ 15 ∧ kp.getLsbD v.toNat = true := by
  simp [keyDown, params]

/-- Settles O49. -/
theorem keySkipsTestBitVx : Obligations.KeySkipsTestBitVx := by
  intro s x down hdown
  have same : keyDown s.kp (s.reg x) = down := by
    rw [Bool.eq_iff_iff, keyDown_iff, hdown]
  refine ⟨⟨_, exec_skp x s, ?_, exec_frame (exec_skp x s)⟩,
    ⟨_, exec_sknp x s, ?_, exec_frame (exec_sknp x s)⟩⟩
  · rw [same, State.skipIf_pc]
  · rw [same, State.skipIf_pc]; cases down <;> rfl

theorem encodedUnder_wordX {i : Instr} {f : BitVec 4} {mask val : Word} {x : Reg} {code : Byte}
    (word : encode i = wordXNN f x code) (masked : encode i &&& mask = val)
    (hval : f.toNat * 4096 + code.toNat = val.toNat) : EncodedUnder i mask val (x.val * 256) :=
  ⟨masked, by rw [word, toNat_wordXNN, ← hval, Nat.add_right_comm]⟩

/-- Settles O50. -/
theorem delayTimerIsReadAndSet : Obligations.DelayTimerIsReadAndSet := by
  intro s x
  have read := exec_ldVxDt x s
  have set := exec_ldDt x s
  exact ⟨encodedUnder_wordX rfl (encode_and_mask (.ldVxDt x)) rfl,
    encodedUnder_wordX rfl (encode_and_mask (.ldDt x)) rfl,
    ⟨_, read, State.reg_setReg_advance _ _ _, rfl, sameRegsBut_of_exec read rfl, exec_frame read⟩,
    ⟨_, set, rfl, rfl, exec_frame set⟩⟩

/-- Settles O51. -/
theorem soundTimerIsSet : Obligations.SoundTimerIsSet :=
  fun s x => ⟨_, exec_ldSt x s, rfl, rfl, exec_frame (exec_ldSt x s)⟩

/-- Settles O52. -/
theorem keyWaitStoresTheLowestKey : Obligations.KeyWaitStoresTheLowestKey := by
  intro s x k hk down lower
  have key : s.env.sample ≠ 0 := by
    intro e
    simp [e] at down
  obtain ⟨noKey, _⟩ | ⟨_, stored⟩ := exec_ldVxK_cases x s
  · exact absurd noKey key
  · rw [lowestKey_eq hk down lower] at stored
    refine ⟨_, stored, ?_, rfl, rfl, rfl, sameRegsBut_of_exec stored rfl, exec_frame stored⟩
    rw [State.reg_setReg_advance, BitVec.toNat_ofNat]
    exact Nat.mod_eq_of_lt (by omega)

/-- Settles O53. -/
theorem keyWaitStaysWithoutAKey : Obligations.KeyWaitStaysWithoutAKey := by
  intro s x noKey
  obtain ⟨_, waits⟩ | ⟨key, _⟩ := exec_ldVxK_cases x s
  · exact ⟨_, waits, rfl, noKey, rfl, sameBut_sampleKeypad s⟩
  · exact absurd noKey key

end Sys2Proof.Machine
end
